-- ==== Sys2Proof/Word.lean ====
section
/-! DEFINITION. The Word, the machine's only data type (`00_scope.md` R4), the console's byte and the
register number. -/

namespace Sys2Proof

/-- One Word of 16 bits, unsigned: every register, memory cell and address (`00_scope.md` R4).
Its `+` wraps modulo 2^16, as the rule says of all arithmetic. -/
abbrev Word := BitVec 16

/-- A byte of the console, of an image file or of half a Word (`10_state.md` R37, `20_memory.md` R61). -/
abbrev Byte := BitVec 8

/-- A register number, R0 to R7; the fields that select one are 3 bits wide, so every value of the
field names a register (`10_state.md` R20). -/
abbrev Reg := Fin 8

end Sys2Proof
end

