-- ==== Sys2Proof/Syntax.lean ====
section
/-! DEFINITION. The instructions, one constructor per row of the opcode table. Operand fields hold the
instruction's bits as they stand; extending them is the machine's business. Don't-care bits
(`30_encoding.md` R84) are not held, but for the reserved opcodes, whose whole Word the fault records. -/

namespace Sys2Proof

/-- One instruction, as the opcode map of `30_encoding.md` R88 and the trap table of R91 list them. -/
inductive Instr where
  /-- ADD, register form (`40_operate.md` R120). -/
  | addReg (dr sr1 sr2 : Reg)
  /-- ADD, immediate form (`40_operate.md` R121). -/
  | addImm (dr sr1 : Reg) (imm5 : BitVec 5)
  /-- AND, register form (`40_operate.md` R122). -/
  | andReg (dr sr1 sr2 : Reg)
  /-- AND, immediate form (`40_operate.md` R123). -/
  | andImm (dr sr1 : Reg) (imm5 : BitVec 5)
  /-- NOT (`40_operate.md` R124). -/
  | notReg (dr sr : Reg)
  /-- BR with its mask n, z, p, n the high bit (`41_control.md` R140). -/
  | br (nzp : BitVec 3) (off9 : BitVec 9)
  /-- JMP; RET is `jmp 7` (`41_control.md` R141). -/
  | jmp (base : Reg)
  /-- JSR (`41_control.md` R145). -/
  | jsr (off11 : BitVec 11)
  /-- JSRR (`41_control.md` R147). -/
  | jsrr (base : Reg)
  /-- LD (`42_load_store.md` R160). -/
  | ld (dr : Reg) (off9 : BitVec 9)
  /-- LDI (`42_load_store.md` R161). -/
  | ldi (dr : Reg) (off9 : BitVec 9)
  /-- LDR (`42_load_store.md` R162). -/
  | ldr (dr base : Reg) (off6 : BitVec 6)
  /-- LEA (`42_load_store.md` R163). -/
  | lea (dr : Reg) (off9 : BitVec 9)
  /-- ST (`42_load_store.md` R164). -/
  | st (sr : Reg) (off9 : BitVec 9)
  /-- STI (`42_load_store.md` R165). -/
  | sti (sr : Reg) (off9 : BitVec 9)
  /-- STR (`42_load_store.md` R166). -/
  | str (sr base : Reg) (off6 : BitVec 6)
  /-- TRAP in its general spelling, with any of the 256 codes (`43_trap.md` R190). Its words are those
  of the seven rows below, and the decoder answers with the row of the code (log entry 20). -/
  | trap (code : BitVec 8)
  /-- The reserved opcode 0x8, with its other twelve bits (`60_exceptions.md` R222). -/
  | reserved8 (rest : BitVec 12)
  /-- The reserved opcode 0xD, with its other twelve bits (`60_exceptions.md` R222). -/
  | reservedD (rest : BitVec 12)
  /-- GETC, TRAP code 0x20 (`43_trap.md` R192). -/
  | getc
  /-- OUT, TRAP code 0x21 (`43_trap.md` R194). -/
  | out
  /-- PUTS, TRAP code 0x22 (`43_trap.md` R196). -/
  | puts
  /-- IN, TRAP code 0x23 (`43_trap.md` R197). -/
  | inTrap
  /-- PUTSP, TRAP code 0x24 (`43_trap.md` R199). -/
  | putsp
  /-- HALT, TRAP code 0x25 (`43_trap.md` R201). -/
  | halt
  /-- TRAP with a code outside 0x20 to 0x25 (`43_trap.md` R203). -/
  | trapUnknown (code : BitVec 8)
  deriving DecidableEq, Repr

end Sys2Proof
end

