-- ==== Sys2Proof/WellFormed.lean ====
section
/-! DEFINITION. Which terms of `Instr` are instructions of the machine. Every operand field has its
width in its type (`30_encoding.md` R86), so one check is left: the row of the unknown trap codes
does not take a code that has a service (`43_trap.md` R203). -/

namespace Sys2Proof

/-- The six trap codes that have a service, 0x20 to 0x25 (`30_encoding.md` R91). -/
def isServiceCode (code : BitVec 8) : Bool :=
  decide (0x20#8 ≤ code) && decide (code ≤ 0x25#8)

/-- The check on an instruction: an unknown trap code is none of the six services' codes
(`43_trap.md` R203). -/
def Instr.wellFormed : Instr → Bool
  | .trapUnknown code => !isServiceCode code
  | .addReg _ _ _ => true
  | .addImm _ _ _ => true
  | .andReg _ _ _ => true
  | .andImm _ _ _ => true
  | .notReg _ _ => true
  | .br _ _ => true
  | .jmp _ => true
  | .jsr _ => true
  | .jsrr _ => true
  | .ld _ _ => true
  | .ldi _ _ => true
  | .ldr _ _ _ => true
  | .lea _ _ => true
  | .st _ _ => true
  | .sti _ _ => true
  | .str _ _ _ => true
  | .trap _ => true
  | .reserved8 _ => true
  | .reservedD _ => true
  | .getc => true
  | .out => true
  | .puts => true
  | .inTrap => true
  | .putsp => true
  | .halt => true

end Sys2Proof
end

