-- ==== Sys2Proof/Decode.lean ====
section
/-! DEFINITION. The decoder, total on every Word (`30_encoding.md` R82), and the encoder, both written
from the formats of `30_encoding.md` R85, the fields of R86 and the opcode map of R88. The numbers and
positions are the spec's own (decisions D1, D2, D3): PRESUMED, log entry 5, unsafe. -/

namespace Sys2Proof

/-! ## Fields of an instruction Word -/

/-- Bits `lo + n - 1` down to `lo` of a Word. -/
def field (ir : Word) (lo n : Nat) : BitVec n := ir.extractLsb' lo n

/-- A Word that holds the field `f` with its lowest bit at `lo`, and zeros elsewhere. -/
def place {n : Nat} (lo : Nat) (f : BitVec n) : Word := f.setWidth 16 <<< lo

/-- The register a 3-bit field names (`10_state.md` R20). -/
def regOfBits (b : BitVec 3) : Reg := b.toFin

/-- The 3-bit field that names a register. -/
def regBits (r : Reg) : BitVec 3 := BitVec.ofFin r

/-- `opcode(ir) = ir[15:12]` (`30_encoding.md` R86). -/
def opcodeField (ir : Word) : BitVec 4 := field ir 12 4

/-- `DR(ir) = SR(ir) = ir[11:9]` (`30_encoding.md` R86). -/
def drField (ir : Word) : Reg := regOfBits (field ir 9 3)

/-- `SR1(ir) = BaseR(ir) = ir[8:6]` (`30_encoding.md` R86). -/
def sr1Field (ir : Word) : Reg := regOfBits (field ir 6 3)

/-- `SR2(ir) = ir[2:0]` (`30_encoding.md` R86). -/
def sr2Field (ir : Word) : Reg := regOfBits (field ir 0 3)

/-- `mode(ir) = ir[5]`: 1 selects imm5, 0 selects SR2 (`30_encoding.md` R86). -/
def modeField (ir : Word) : BitVec 1 := field ir 5 1

/-- `long(ir) = ir[11]`: 1 is JSR, 0 is JSRR (`30_encoding.md` R86). -/
def longField (ir : Word) : BitVec 1 := field ir 11 1

/-- The bits of `imm5(ir)`, `ir[4:0]` (`30_encoding.md` R86). -/
def imm5Field (ir : Word) : BitVec 5 := field ir 0 5

/-- The bits of `offset6(ir)`, `ir[5:0]` (`30_encoding.md` R86). -/
def off6Field (ir : Word) : BitVec 6 := field ir 0 6

/-- The bits of `PCoffset9(ir)`, `ir[8:0]` (`30_encoding.md` R86). -/
def off9Field (ir : Word) : BitVec 9 := field ir 0 9

/-- The bits of `PCoffset11(ir)`, `ir[10:0]` (`30_encoding.md` R86). -/
def off11Field (ir : Word) : BitVec 11 := field ir 0 11

/-- `nzp(ir) = ir[11:9]`, n = bit 11, z = bit 10, p = bit 9 (`30_encoding.md` R86). -/
def nzpField (ir : Word) : BitVec 3 := field ir 9 3

/-- `trapvect8(ir) = ir[7:0]`, unsigned (`30_encoding.md` R86). -/
def trapField (ir : Word) : BitVec 8 := field ir 0 8

/-! ## The opcode map -/

/-- The sixteen opcodes, two of them reserved (`30_encoding.md` R88). -/
inductive Opcode where
  | br | add | ld | st | jsr | and | ldr | str
  | reserved8 | not | ldi | sti | jmp | reservedD | lea | trap
  deriving DecidableEq, Repr

/-- An opcode's number (`30_encoding.md` R88). -/
def Opcode.bits : Opcode → BitVec 4
  | .br => 0x0
  | .add => 0x1
  | .ld => 0x2
  | .st => 0x3
  | .jsr => 0x4
  | .and => 0x5
  | .ldr => 0x6
  | .str => 0x7
  | .reserved8 => 0x8
  | .not => 0x9
  | .ldi => 0xA
  | .sti => 0xB
  | .jmp => 0xC
  | .reservedD => 0xD
  | .lea => 0xE
  | .trap => 0xF

/-- The opcode of a number; sixteen numbers, sixteen opcodes, the last arm is 0xF (`30_encoding.md` R88). -/
def Opcode.ofBits (b : BitVec 4) : Opcode :=
  match b with
  | 0x0#4 => .br
  | 0x1#4 => .add
  | 0x2#4 => .ld
  | 0x3#4 => .st
  | 0x4#4 => .jsr
  | 0x5#4 => .and
  | 0x6#4 => .ldr
  | 0x7#4 => .str
  | 0x8#4 => .reserved8
  | 0x9#4 => .not
  | 0xA#4 => .ldi
  | 0xB#4 => .sti
  | 0xC#4 => .jmp
  | 0xD#4 => .reservedD
  | 0xE#4 => .lea
  | _ => .trap

/-- The row of the trap table that a code selects (`30_encoding.md` R91, `43_trap.md` R190). -/
def decodeTrap (code : BitVec 8) : Instr :=
  if code = 0x20 then .getc
  else if code = 0x21 then .out
  else if code = 0x22 then .puts
  else if code = 0x23 then .inTrap
  else if code = 0x24 then .putsp
  else if code = 0x25 then .halt
  else .trapUnknown code

/-- The decoder: every Word is exactly one row of the opcode map (`30_encoding.md` R82, R88). Bits no
field uses are not looked at (R84, decision D3: log entry 6, unsafe). -/
def decodeWord (ir : Word) : Instr :=
  match Opcode.ofBits (opcodeField ir) with
  | .br => .br (nzpField ir) (off9Field ir)
  | .add =>
    if modeField ir = 1 then .addImm (drField ir) (sr1Field ir) (imm5Field ir)
    else .addReg (drField ir) (sr1Field ir) (sr2Field ir)
  | .ld => .ld (drField ir) (off9Field ir)
  | .st => .st (drField ir) (off9Field ir)
  | .jsr => if longField ir = 1 then .jsr (off11Field ir) else .jsrr (sr1Field ir)
  | .and =>
    if modeField ir = 1 then .andImm (drField ir) (sr1Field ir) (imm5Field ir)
    else .andReg (drField ir) (sr1Field ir) (sr2Field ir)
  | .ldr => .ldr (drField ir) (sr1Field ir) (off6Field ir)
  | .str => .str (drField ir) (sr1Field ir) (off6Field ir)
  | .reserved8 => .reserved8 (field ir 0 12)
  | .not => .notReg (drField ir) (sr1Field ir)
  | .ldi => .ldi (drField ir) (off9Field ir)
  | .sti => .sti (drField ir) (off9Field ir)
  | .jmp => .jmp (sr1Field ir)
  | .reservedD => .reservedD (field ir 0 12)
  | .lea => .lea (drField ir) (off9Field ir)
  | .trap => decodeTrap (trapField ir)

/-! ## The encoder -/

/-- The Word of an instruction that has an opcode and a body of lower bits. -/
def withOpcode (op : Opcode) (body : Word) : Word := place 12 op.bits ||| body

/-- A TRAP's Word (`30_encoding.md` R85, format T8, canonical bits 11:8 zero). -/
def encodeTrap (code : BitVec 8) : Word := withOpcode .trap (place 0 code)

/-- The canonical Word of an instruction (`30_encoding.md` R84, R85): don't-care bits are 0, but for
NOT's bits 5:0, which are ones. -/
def encode : Instr → Word
  | .addReg dr sr1 sr2 =>
    withOpcode .add (place 9 (regBits dr) ||| place 6 (regBits sr1) ||| place 0 (regBits sr2))
  | .addImm dr sr1 imm5 =>
    withOpcode .add (place 9 (regBits dr) ||| place 6 (regBits sr1) ||| place 5 1#1 ||| place 0 imm5)
  | .andReg dr sr1 sr2 =>
    withOpcode .and (place 9 (regBits dr) ||| place 6 (regBits sr1) ||| place 0 (regBits sr2))
  | .andImm dr sr1 imm5 =>
    withOpcode .and (place 9 (regBits dr) ||| place 6 (regBits sr1) ||| place 5 1#1 ||| place 0 imm5)
  | .notReg dr sr =>
    withOpcode .not (place 9 (regBits dr) ||| place 6 (regBits sr) ||| place 0 0b111111#6)
  | .br nzp off9 => withOpcode .br (place 9 nzp ||| place 0 off9)
  | .jmp base => withOpcode .jmp (place 6 (regBits base))
  | .jsr off11 => withOpcode .jsr (place 11 1#1 ||| place 0 off11)
  | .jsrr base => withOpcode .jsr (place 6 (regBits base))
  | .ld dr off9 => withOpcode .ld (place 9 (regBits dr) ||| place 0 off9)
  | .ldi dr off9 => withOpcode .ldi (place 9 (regBits dr) ||| place 0 off9)
  | .ldr dr base off6 =>
    withOpcode .ldr (place 9 (regBits dr) ||| place 6 (regBits base) ||| place 0 off6)
  | .lea dr off9 => withOpcode .lea (place 9 (regBits dr) ||| place 0 off9)
  | .st sr off9 => withOpcode .st (place 9 (regBits sr) ||| place 0 off9)
  | .sti sr off9 => withOpcode .sti (place 9 (regBits sr) ||| place 0 off9)
  | .str sr base off6 =>
    withOpcode .str (place 9 (regBits sr) ||| place 6 (regBits base) ||| place 0 off6)
  | .trap code => encodeTrap code
  | .reserved8 rest => withOpcode .reserved8 (place 0 rest)
  | .reservedD rest => withOpcode .reservedD (place 0 rest)
  | .getc => encodeTrap 0x20
  | .out => encodeTrap 0x21
  | .puts => encodeTrap 0x22
  | .inTrap => encodeTrap 0x23
  | .putsp => encodeTrap 0x24
  | .halt => encodeTrap 0x25
  | .trapUnknown code => encodeTrap code

/-- The row an instruction's own Word decodes to: TRAP in its general spelling is the row of its code,
every other instruction is its own row (`43_trap.md` R190, log entry 20). -/
def Instr.resolve : Instr → Instr
  | .trap code => decodeTrap code
  | i => i

/-- The bits of a Word that its format's fields use, opcode and selector bits among them; the others
are don't-care bits (`30_encoding.md` R84, R85). The reserved opcodes ignore bits 11:0 for decoding
but record them (`10_state.md` R34), so all sixteen count here. -/
def usedBits (ir : Word) : Word :=
  match Opcode.ofBits (opcodeField ir) with
  | .br => 0xFFFF
  | .add => if modeField ir = 1 then 0xFFFF else 0xFFE7
  | .ld => 0xFFFF
  | .st => 0xFFFF
  | .jsr => if longField ir = 1 then 0xFFFF else 0xF9C0
  | .and => if modeField ir = 1 then 0xFFFF else 0xFFE7
  | .ldr => 0xFFFF
  | .str => 0xFFFF
  | .reserved8 => 0xFFFF
  | .not => 0xFFC0
  | .ldi => 0xFFFF
  | .sti => 0xFFFF
  | .jmp => 0xF1C0
  | .reservedD => 0xFFFF
  | .lea => 0xFFFF
  | .trap => 0xF0FF

/-! ## Bytes: how an instruction lies in an image file -/

/-- The Word of a big-endian pair of bytes, the first byte in bits 15:8 (`70_reset_and_hazards.md` R256). -/
def wordOfBytes (hi lo : Byte) : Word := (hi ++ lo : BitVec (8 + 8))

/-- The big-endian pair of bytes of a Word (`70_reset_and_hazards.md` R256). -/
def bytesOfWord (w : Word) : List Byte := [field w 8 8, field w 0 8]

/-- Why a byte string holds no instruction: fewer than the two bytes every instruction has
(`30_encoding.md` R83). Raised by `decodeBytes` only; safe, since memory holds whole Words. -/
inductive DecodeError where
  | truncated
  deriving DecidableEq, Repr

/-- The instruction at the front of a byte string laid out as an image file is (log entry 28), with the
bytes after it. Total: a string shorter than a Word is rejected by name, every other one has an instruction. -/
def decodeBytes : List Byte → Except DecodeError (Instr × List Byte)
  | hi :: lo :: rest => .ok (decodeWord (wordOfBytes hi lo), rest)
  | [_] => .error .truncated
  | [] => .error .truncated

/-- The instruction the decoder reads from the table's word `w` of `nbits` bits. Every instruction has
16 bits (`30_encoding.md` R83); a longer word, or one that does not fit, has none. -/
def decodeTableWord (nbits w : Nat) : Option Instr :=
  if nbits ≤ 16 ∧ w < 65536 then
    match decodeBytes (bytesOfWord (BitVec.ofNat 16 w)) with
    | .ok (i, _) => some i
    | .error _ => none
  else none

end Sys2Proof
end

