-- ==== Sys2Proof/Machine/Bits.lean ====
section
/-! DEFINITION. Extensions and halves of a Word: `sext_N`, `zext_N` and the two bytes
(`00_scope.md` R5, R6, `20_memory.md` R60, R61). -/

namespace Sys2Proof.Machine

/-- `sext_N(f)`: the field with its sign bit copied into every higher bit (`00_scope.md` R5). -/
def sext {n : Nat} (f : BitVec n) : Word := f.signExtend 16

/-- `zext_8(c)`: the byte with bits 15:8 cleared (`00_scope.md` R6). -/
def zext8 (c : Byte) : Word := c.setWidth 16

/-- Bits 7:0 of a Word, where a character is carried (`20_memory.md` R60). -/
def lowByte (w : Word) : Byte := w.extractLsb' 0 8

/-- Bits 15:8 of a Word (`20_memory.md` R61). -/
def highByte (w : Word) : Byte := w.extractLsb' 8 8

end Sys2Proof.Machine
end

