-- ==== Sys2Proof/Config.lean ====
section
/-! DEFINITION. What one build of the block fixes (`00_scope.md` section 4), and the free values: the
host's answers that the spec leaves to its oracle. An `opaque` constant has no body, so no proof can
see what it is. -/

namespace Sys2Proof.Config

/-- The keyboard status register's address, KBSR (`20_memory.md` R53). -/
def kbsr : Word := 0xFE00

/-- The keyboard data register's address, KBDR (`20_memory.md` R53). -/
def kbdr : Word := 0xFE02

/-- The parameter `RESET_PC` at the spec's default (`10_state.md` R46).
PRESUMED, log entry 2, unsafe: the source gives no start address. -/
def resetPc : Word := 0x3000

/-- The parameter `IN_PROMPT`, the bytes IN writes before it reads (`43_trap.md` R197, decision D10).
Open in the spec, log entry 15, safe. -/
opaque inPrompt : List Byte

/-- The parameter `HALT_NOTICE`, the text of the halt notice on the diagnostic channel
(`43_trap.md` R201, decision D9). Open in the spec, log entry 14, safe. -/
opaque haltNotice : List Byte

/-- The parameter `FAULT_EXIT_CODE` (`70_reset_and_hazards.md` R262, decision D15).
Open in the spec, log entry 19, safe. -/
opaque faultExitCode : Int

/-- The free value behind the parameter `STOP_EXIT_CODE` (`70_reset_and_hazards.md` R262, decision
D14): a sign and a distance from the codes that are taken. Log entry 19, safe. -/
opaque stopExitDraw : Bool × Nat

/-- The parameter `STOP_EXIT_CODE`: any number but 0, 1 and 2, "a distinct negative/non-zero code"
(`70_reset_and_hazards.md` R262). Every number but those three is the code of some draw. -/
def stopExitCode : Int :=
  if stopExitDraw.1 then -(stopExitDraw.2 : Int) - 1 else (stopExitDraw.2 : Int) + 3

/-- The answers of `PollInput` that nobody scripted, a draw of the host's oracle (`10_state.md` R43,
`93_implementation_defined.md` U17), run by run: how many true ones come before the next false one, or
none when every later answer is true. Log entry 8, safe. -/
opaque hostPollRun : Nat → Option Nat

/-- The characters that nobody scripted, a draw of the host's oracle (`10_state.md` R43,
`93_implementation_defined.md` U17), run by run: how many come before the next 0x00, or none when no
later one is 0x00. Log entry 8, safe. -/
opaque hostTextRun : Nat → Option Nat

/-- Which of the characters 0x01 to 0xFF an unscripted one that is not 0x00 is, counted from 0, a draw
of the host's oracle (`93_implementation_defined.md` U17). Log entry 8, safe. -/
opaque hostText : Nat → Fin 255

end Sys2Proof.Config
end

