-- ==== Sys2Proof/Machine/State.lean ====
section
/-! DEFINITION. The machine's state as plain data: everything `10_state.md` section 1 lists, and the
host's side of the ports (`10_state.md` R36, R43). Also the state after reset (`70_reset_and_hazards.md`
R250) and the reasons a step can stop. -/

namespace Sys2Proof.Machine

/-- The condition code: exactly one of three values (`10_state.md` R26). -/
inductive Cond where
  | positive | zero | negative
  deriving DecidableEq, Repr

/-- The run state (`10_state.md` R33). `booting` is R250's "not yet RUNNING (boot in progress)".
DESIGN CHOICE, log entry 17: R33's enumeration has no name for it. -/
inductive RunState where
  | booting | running | halted | faulted | stopped
  deriving DecidableEq, Repr

/-- The kind of a recorded fault; the block has one (`10_state.md` R34, `60_exceptions.md` R226). -/
inductive FaultKind where
  | illegalOpcode
  deriving DecidableEq, Repr

/-- The fault record (`10_state.md` R34). -/
structure FaultInfo where
  kind : FaultKind
  opcode : BitVec 4
  instr : Word
  addr : Word
  deriving DecidableEq, Repr

/-- An event of the diagnostic channel (`10_state.md` R39). -/
inductive DiagEvent where
  | haltNotice
  | unknownTrap (code : BitVec 8)
  deriving DecidableEq, Repr

/-- One transaction on a port of the block, with the host's reply (`10_state.md` R36). -/
inductive PortEvent where
  | pollInput (answer : Bool)
  | readChar (char : Byte)
  | writeChar (char : Byte)
  | diag (event : DiagEvent)
  deriving DecidableEq, Repr

/-- An image file on the `load` port: one that cannot be opened or read, or its bytes
(`70_reset_and_hazards.md` R256, R258). -/
inductive ImageFile where
  | unreadable
  | bytes (content : List Byte)
  deriving DecidableEq, Repr

/-- What is left of the current run of a free sequence: not drawn yet, a number of yeses before the next
no, or yes for ever. -/
inductive Run where
  | undrawn
  | left (yeses : Nat)
  | endless
  deriving DecidableEq, Repr

/-- A place in a free sequence of yes and no, which the host draws run by run: what is left of the current
run, and how many runs are over. The model's own form of U17's draws. DESIGN CHOICE, log entry 8. -/
structure FreeSeq where
  run : Run
  runsOver : Nat
  deriving DecidableEq, Repr

/-- A free sequence before anything of it is drawn. -/
def FreeSeq.start : FreeSeq := { run := .undrawn, runsOver := 0 }

/-- The host's side of the ports (`10_state.md` R36, R43). The lists from `images` on are what the host
will do, oldest first; the step reads them. DESIGN CHOICE, log entries 8, 16, 17 and 23. -/
structure Ports where
  /-- Every transaction so far, oldest first; console output and `diag` are parts of it. -/
  trace : List PortEvent
  /-- The image files still to be loaded, in argument order. -/
  images : List ImageFile
  /-- The levels of `stop_request` at the next instruction boundaries; when it is empty the level stays. -/
  stopLevels : List Bool
  /-- The scripted answers of `PollInput`; when it is empty the answers are free. -/
  polls : List Bool
  /-- The scripted characters of `ReadChar`; when it is empty they are free, or the input has ended. -/
  keys : List Byte
  /-- Whether the input ends after `keys` (`70_reset_and_hazards.md` R265). -/
  keysEnded : Bool
  /-- The unscripted answers of `PollInput`: yes is true. -/
  freePolls : FreeSeq
  /-- The unscripted characters of `ReadChar`: yes is one that is not 0x00. -/
  freeText : FreeSeq
  /-- How many answers the host has given; the model's own counter, which free values are applied to. -/
  draws : Nat
  deriving DecidableEq, Repr

/-- Memory as a list of (word address, Word) pairs in canonical form: addresses strictly rising, below
65536, and no Word 0x0000, which is what an unlisted address reads as (`20_memory.md` R50, R52).
DESIGN CHOICE, log entry 1: the cell is the Word, the only unit the block addresses (R60). -/
abbrev Memory := List (Nat × Word)

/-- The state of the block (`10_state.md` section 1) and of the host's side of its ports. -/
structure State where
  /-- R0 to R7 (`10_state.md` R20). -/
  regs : Vector Word 8
  /-- The program counter (`10_state.md` R24). -/
  pc : Word
  /-- The condition code (`10_state.md` R26). -/
  cond : Cond
  /-- The 65536 Words of memory, KBSR and KBDR among them (`20_memory.md` R50, R53). -/
  mem : Memory
  /-- The run state (`10_state.md` R33). -/
  run : RunState
  /-- The fault record (`10_state.md` R34). -/
  faultInfo : Option FaultInfo
  /-- The stop request as last sampled (`10_state.md` R40). -/
  stopReq : Bool
  /-- The host's side of the ports (`10_state.md` R36). -/
  ports : Ports
  deriving DecidableEq, Repr

/-- The ports after reset: no transaction yet (`70_reset_and_hazards.md` R250), nothing scripted. -/
def Ports.reset : Ports :=
  { trace := [], images := [], stopLevels := [], polls := [], keys := [],
    keysEnded := false, freePolls := FreeSeq.start, freeText := FreeSeq.start, draws := 0 }

/-- The state reset leaves for a given `RESET_PC` (`70_reset_and_hazards.md` R250). The values of R0 to
R7 and `cond` are the spec's decisions D7 and D6, not source facts: log entries 3 and 4, unsafe. -/
def State.resetAt (pc : Word) : State :=
  { regs := Vector.replicate 8 0, pc := pc, cond := .zero, mem := [], run := .booting,
    faultInfo := none, stopReq := false, ports := Ports.reset }

/-- The machine right after reset (`70_reset_and_hazards.md` R250), at the default `RESET_PC`. -/
def State.reset : State := State.resetAt Config.resetPc

/-- Why the machine stops without a next state. Every one is safe: the model stops, it invents nothing. -/
inductive Fault where
  /-- Raised by `step` when `run` is HALTED, FAULTED or STOPPED: "when `run` is not RUNNING there is
  no step" (`30_encoding.md` R80, `10_state.md` R33). Safe, log entry 18. -/
  | notRunning (run : RunState)
  /-- Raised by GETC, IN and TRAP with their codes when the input has ended: "`read_char` does not
  return, and the block waits forever" (`70_reset_and_hazards.md` R265). A stuck state; safe, log
  entry 10. -/
  | inputNeverComes
  /-- Raised by PUTS and TRAP 0x22 when no terminator is ever read, and then only: "PUTS never ends and
  the run hangs inside one step" (`43_trap.md` R196). A stuck state; safe, log entry 11. -/
  | stringNeverEnds
  /-- Raised by a boot step whose image cannot be read or has no origin: LoadError, no instruction
  executes (`70_reset_and_hazards.md` R258). Safe, log entry 26. -/
  | loadError
  /-- Raised by `powerOn` when no image is named: UsageError, no instruction executes
  (`70_reset_and_hazards.md` R258). Safe, log entry 17. -/
  | usageError
  deriving DecidableEq, Repr

/-- Why the model has no meaning for an instruction. -/
inductive Refusal where
  /-- The dispatch's answer for an instruction without a meaning; no arm uses it. Safe. -/
  | notModelled (mnemonic : String)
  deriving DecidableEq, Repr

end Sys2Proof.Machine
end

