-- ==== Sys2Proof/Machine/Ops.lean ====
section
/-! DEFINITION. The named operations over memory, registers and ports: the only ways the meanings touch
the state. Also what the spec gives in place of exception entry: TRAP's save of the return address and
the fatal IllegalOpcodeFault (`60_exceptions.md` R222, R230). There is no return from an exception
(R232); a subroutine returns by JMP R7. -/

namespace Sys2Proof.Machine

/-! ## Memory -/

/-- What an address that is not listed reads as: memory is 0x0000 where nothing was written
(`20_memory.md` R52). -/
def Memory.unlisted : Word := 0

/-- The stored Word at an address (`20_memory.md` R52). -/
def Memory.read : Memory → Nat → Word
  | [], _ => Memory.unlisted
  | (k, v) :: rest, a => if k = a then v else Memory.read rest a

/-- Storing a Word at an address, keeping the canonical form. -/
def Memory.write : Memory → Nat → Word → Memory
  | [], a, v => if v = Memory.unlisted then [] else [(a, v)]
  | (k, w) :: rest, a, v =>
    if k < a then (k, w) :: Memory.write rest a v
    else if k = a then (if v = Memory.unlisted then rest else (a, v) :: rest)
    else if v = Memory.unlisted then (k, w) :: rest
    else (a, v) :: (k, w) :: rest

/-- The canonical form: addresses strictly rising and below 65536 (`20_memory.md` R50), and no entry
that reads as an unlisted address does. -/
abbrev Memory.wf (m : Memory) : Prop :=
  m.Pairwise (fun c d => c.1 < d.1) ∧ ∀ c ∈ m, c.1 < 65536 ∧ c.2 ≠ Memory.unlisted

/-! ## Registers and fields of the state -/

/-- `x[i]`: the value of a general register (`10_state.md` R20). -/
def State.reg (s : State) (r : Reg) : Word := s.regs.get r

/-- `x[i] <- v` (`10_state.md` R20); no register is special (R21). -/
def State.setReg (s : State) (r : Reg) (v : Word) : State := { s with regs := s.regs.set r v }

/-- `pc <- target` (`10_state.md` R24). -/
def State.setPc (s : State) (target : Word) : State := { s with pc := target }

/-- `cond <- c` (`10_state.md` R26). -/
def State.setCond (s : State) (c : Cond) : State := { s with cond := c }

/-- `run <- r` (`10_state.md` R33). -/
def State.setRun (s : State) (r : RunState) : State := { s with run := r }

/-- The host's side of the ports after a transaction (`10_state.md` R36). -/
def State.setPorts (s : State) (p : Ports) : State := { s with ports := p }

/-- The stored Word at a word address, without the intercept: what stands in `mem` (`20_memory.md` R50). -/
def State.word (s : State) (a : Word) : Word := s.mem.read a.toNat

/-- `MemWrite(addr, 1, v)`: a plain store at every address, KBSR and KBDR included, with no other
effect (`20_memory.md` R57). -/
def State.memWrite (s : State) (a v : Word) : State := { s with mem := s.mem.write a.toNat v }

/-! ## Ports -/

/-- Whether a character is still to come: one is scripted, or the input has not ended. A host that
answers a poll with true owes one (`70_reset_and_hazards.md` R265). -/
def Ports.charToCome (p : Ports) : Bool := !p.keys.isEmpty || !p.keysEnded

/-- How many yeses a free sequence has before its next no, or none when it has no more noes. -/
def FreeSeq.yeses (free : Nat → Option Nat) (q : FreeSeq) : Option Nat :=
  match q.run with
  | .undrawn => free q.runsOver
  | .left n => some n
  | .endless => none

/-- The next answer of a free sequence. -/
def FreeSeq.answer (free : Nat → Option Nat) (q : FreeSeq) : Bool :=
  match q.yeses free with
  | some 0 => false
  | some (_ + 1) => true
  | none => true

/-- A free sequence after its next answer. -/
def FreeSeq.next (free : Nat → Option Nat) (q : FreeSeq) : FreeSeq :=
  match q.yeses free with
  | some 0 => { run := .undrawn, runsOver := q.runsOver + 1 }
  | some (n + 1) => { q with run := .left n }
  | none => { q with run := .endless }

/-- What the host says to a poll: its script, else a free answer (`10_state.md` R43). -/
def Ports.pollDraw (p : Ports) : Bool :=
  match p.polls with
  | b :: _ => b
  | [] => p.freePolls.answer Config.hostPollRun

/-- The unscripted answers after a poll: one is used up when no script gives it. -/
def Ports.pollsAfter (p : Ports) : FreeSeq :=
  match p.polls with
  | _ :: _ => p.freePolls
  | [] => p.freePolls.next Config.hostPollRun

/-- The answer of `PollInput` (`10_state.md` R37). It is true only when a character is to come, the
host's duty of `70_reset_and_hazards.md` R265. DESIGN CHOICE, log entry 9, unsafe: a host that breaks
the duty is outside the model. -/
def Ports.pollAnswer (p : Ports) : Bool := p.charToCome && p.pollDraw

/-- The ports after `PollInput`. -/
def Ports.polled (p : Ports) : Ports :=
  { p with
    polls := p.polls.tail
    freePolls := p.pollsAfter
    draws := p.draws + 1
    trace := p.trace ++ [.pollInput p.pollAnswer] }

/-- A character nobody scripted: 0x00, or any of the others, as the free values say. -/
def Ports.freeChar (p : Ports) : Byte :=
  if p.freeText.answer Config.hostTextRun then BitVec.ofNat 8 ((Config.hostText p.draws).val + 1) else 0

/-- The character the next `ReadChar` returns, when one is to come: the script's, else a free value. -/
def Ports.nextChar (p : Ports) : Byte :=
  match p.keys with
  | c :: _ => c
  | [] => p.freeChar

/-- The unscripted characters after a `ReadChar`: one is used up when no script gives it. -/
def Ports.textAfter (p : Ports) : FreeSeq :=
  match p.keys with
  | _ :: _ => p.freeText
  | [] => p.freeText.next Config.hostTextRun

/-- The ports after a `ReadChar` that returned. -/
def Ports.charRead (p : Ports) : Ports :=
  { p with
    keys := p.keys.tail
    freeText := p.textAfter
    draws := p.draws + 1
    trace := p.trace ++ [.readChar p.nextChar] }

/-- The ports after `WriteChar` of each byte in turn; the host accepts every one
(`70_reset_and_hazards.md` R265). -/
def Ports.charsWritten (p : Ports) (bs : List Byte) : Ports :=
  { p with trace := p.trace ++ bs.map .writeChar }

/-- The ports after `Diag(e)` (`10_state.md` R39). -/
def Ports.diagEmitted (p : Ports) (e : DiagEvent) : Ports := { p with trace := p.trace ++ [.diag e] }

/-- `ReadChar()`: the byte and the state after it, or none when the input has ended and the call never
returns (`10_state.md` R37, `70_reset_and_hazards.md` R265). -/
def State.readChar (s : State) : Option (Byte × State) :=
  if s.ports.charToCome then some (s.ports.nextChar, s.setPorts s.ports.charRead) else none

/-- `WriteChar` of each byte in turn (`10_state.md` R37). -/
def State.writeChars (s : State) (bs : List Byte) : State := s.setPorts (s.ports.charsWritten bs)

/-- `WriteChar(b)` (`10_state.md` R37). -/
def State.writeChar (s : State) (b : Byte) : State := s.writeChars [b]

/-- `Diag(e)` (`10_state.md` R39). -/
def State.emitDiag (s : State) (e : DiagEvent) : State := s.setPorts (s.ports.diagEmitted e)

/-! ## The read path -/

/-- What a read of KBSR does before it returns the stored Word (`20_memory.md` R54): a poll, and with
input pending the status 0x8000 and the next character in KBDR, else the status 0x0000. The character
is read only after a true poll, so this read never waits (`90_conflicts.md` C7). -/
def State.pollKeyboard (s : State) : State :=
  let polled := s.setPorts s.ports.polled
  if s.ports.pollAnswer then
    let ready := polled.memWrite Config.kbsr 0x8000
    (ready.setPorts ready.ports.charRead).memWrite Config.kbdr (zext8 ready.ports.nextChar)
  else polled.memWrite Config.kbsr 0x0000

/-- The state a read of an address leaves: only a read of KBSR has a side effect (`20_memory.md` R54,
R56). -/
def State.afterRead (s : State) (a : Word) : State := if a = Config.kbsr then s.pollKeyboard else s

/-- `MemRead(addr, 1)`: the intercept first, then the stored Word (`20_memory.md` R54). The state after
it is `afterRead`. -/
def State.memRead (s : State) (a : Word) : Word := (s.afterRead a).word a

/-- The instruction Word a fetch reads at `pc`, through the intercept (`30_encoding.md` R80). -/
def State.fetchWord (s : State) : Word := s.memRead s.pc

/-- The state after a fetch: the read's, with `pc` moved past the Word before it is decoded
(`30_encoding.md` R80, `10_state.md` R24). -/
def State.afterFetch (s : State) : State := (s.afterRead s.pc).setPc (s.pc + 1)

/-! ## Instruction boundary, trap entry and fault -/

/-- The stop request sampled at an instruction boundary: the level the host drives, if it changes it
here (`10_state.md` R40). DESIGN CHOICE, log entry 16. -/
def State.sampleStop (s : State) : State :=
  match s.ports.stopLevels with
  | level :: rest => { s with stopReq := level, ports := { s.ports with stopLevels := rest } }
  | [] => s

/-- Trap entry saves one thing, the return address in R7, and sets no flag (`43_trap.md` R190,
`60_exceptions.md` R230). At an instruction's execution `pc` is its address plus 1. -/
def State.saveReturn (s : State) : State := s.setReg 7 s.pc

/-- IllegalOpcodeFault for the instruction Word `ir` (`60_exceptions.md` R222): the record of
`10_state.md` R34 and `run <- FAULTED`, nothing else. The address is that of the instruction, one below
`pc`. The record is the spec's decision D15: log entry 22. -/
def State.illegalOpcode (s : State) (ir : Word) : State :=
  { s with
    run := .faulted
    faultInfo := some
      { kind := .illegalOpcode, opcode := ir.extractLsb' 12 4, instr := ir, addr := s.pc - 1 } }

end Sys2Proof.Machine
end

