-- ==== Sys2Proof/Machine/Boot.lean ====
section
/-! DEFINITION. Boot: image files into memory before the first instruction (`70_reset_and_hazards.md`
R255 to R258). One boot step does one pass of R258's loop; log entries 17 and 26. -/

namespace Sys2Proof.Machine

/-- The big-endian Words of a byte stream; a trailing odd byte is discarded
(`70_reset_and_hazards.md` R256, R257). -/
def wordsOfBytes : List Byte → List Word
  | hi :: lo :: rest => wordOfBytes hi lo :: wordsOfBytes rest
  | [_] => []
  | [] => []

/-- Words stored one after the other from an address, clipped at the top of memory
(`70_reset_and_hazards.md` R256, R257). -/
def Memory.storeFrom (m : Memory) (a : Nat) : List Word → Memory
  | [] => m
  | w :: ws => if a < 65536 then Memory.storeFrom (m.write a w) (a + 1) ws else m

/-- One image loaded: its first Word is the origin, the rest is its content; none is LoadError's
"fewer than 2 bytes" (`70_reset_and_hazards.md` R256, R258). -/
def State.loadImage (s : State) (content : List Byte) : Option State :=
  match wordsOfBytes content with
  | [] => none
  | origin :: ws => some { s with mem := s.mem.storeFrom origin.toNat ws }

/-- One boot step (`70_reset_and_hazards.md` R258): load the next image, or LoadError; when no image is
left, `run <- RUNNING`. -/
def bootStep (s : State) : Host.Outcome State Fault Refusal :=
  match s.ports.images with
  | [] => .next (s.setRun .running)
  | .unreadable :: _ => .fault .loadError
  | .bytes content :: rest =>
    match (s.setPorts { s.ports with images := rest }).loadImage content with
    | some t => .next t
    | none => .fault .loadError

/-- The start of a run (`70_reset_and_hazards.md` R258): UsageError when no image is named, else reset
with the images on the `load` port. -/
def powerOn (images : List ImageFile) : Host.Outcome State Fault Refusal :=
  match images with
  | [] => .fault .usageError
  | first :: rest =>
    .next (State.reset.setPorts { State.reset.ports with images := first :: rest })

end Sys2Proof.Machine
end

