-- ==== Sys2Proof/Machine/Cycle.lean ====
section
/-! DEFINITION. The instruction cycle around the dispatch (`30_encoding.md` R80): what a step does before
it executes an instruction, and the steps that execute none. `Step.lean` joins it to `exec`. -/

namespace Sys2Proof.Machine

/-- What one step of the block comes to before any instruction has run: an instruction Word fetched, to
be executed at a state, or an outcome without an instruction. -/
inductive Turn where
  | execute (ir : Word) (s : State)
  | settled (o : Host.Outcome State Fault Refusal)

/-- The cycle up to the dispatch when `run` is RUNNING: the stop request is sampled before the fetch,
and when it is set the run stops and nothing is fetched (`30_encoding.md` R80, `10_state.md` R40). -/
def State.runningTurn (s : State) : Turn :=
  let t := s.sampleStop
  if t.stopReq then .settled (.next (t.setRun .stopped)) else .execute t.fetchWord t.afterFetch

/-- The turn of any state: boot first (`70_reset_and_hazards.md` R258), then the cycle, and no step in
the three terminal run states (`10_state.md` R33). -/
def State.turn (s : State) : Turn :=
  match s.run with
  | .booting => .settled (bootStep s)
  | .running => s.runningTurn
  | .halted => .settled (.fault (.notRunning .halted))
  | .faulted => .settled (.fault (.notRunning .faulted))
  | .stopped => .settled (.fault (.notRunning .stopped))

/-- Where a Word is placed for the next fetch: at `pc`, unless `pc` is KBSR, whose every read is
overwritten by the poll first; then at `RESET_PC` (log entry 21). -/
def State.fetchSlot (s : State) : Word := if s.pc = Config.kbsr then Config.resetPc else s.pc

/-- The state whose next step fetches the Word `ir`: stored in the fetch slot, `run` RUNNING as after
boot, and no stop request at the boundary (log entry 21). -/
def State.placeForFetch (s : State) (ir : Word) : State :=
  { s with
    pc := s.fetchSlot
    mem := s.mem.write s.fetchSlot.toNat ir
    run := .running
    stopReq := false
    ports := { s.ports with stopLevels := [] } }

end Sys2Proof.Machine
end

