-- ==== Sys2Proof/Machine/Flags.lean ====
section
/-! DEFINITION. The condition code: its bits, the classification of a Word, and SetCC
(`10_state.md` R26, R27). There is no carry, overflow or other flag (`40_operate.md` R119). -/

namespace Sys2Proof.Machine

/-- The one-hot bits of the condition code, as BR's mask meets them (`10_state.md` R26).
PRESUMED, log entry 5, unsafe: the bit values are the spec's decision D4. -/
def Cond.bits : Cond → BitVec 3
  | .positive => 0b001
  | .zero => 0b010
  | .negative => 0b100

/-- The classification of a Word (`10_state.md` R27). -/
def classify (v : Word) : Cond :=
  if v = 0 then .zero else if v.getLsbD 15 then .negative else .positive

/-- `SetCC(i)`: `cond` from the current value of Ri (`10_state.md` R27). -/
def State.setCC (s : State) (r : Reg) : State := s.setCond (classify (s.reg r))

/-- A result in its destination register, then SetCC on that register: how every flag-setting
instruction ends (`10_state.md` R28). -/
def State.writeResult (s : State) (dr : Reg) (v : Word) : State := (s.setReg dr v).setCC dr

/-- BR's test: the mask against the condition code's bits (`41_control.md` R140). -/
def condMeets (nzp : BitVec 3) (c : Cond) : Bool := decide (nzp &&& c.bits ≠ 0)

end Sys2Proof.Machine
end

