-- ==== Sys2Proof/Machine/Operands.lean ====
section
/-! DEFINITION. Every operand form and effective address (`42_load_store.md` R168, `30_encoding.md`
R87), computed by wrapping addition. Throughout, `pc` is the instruction's address plus 1
(`30_encoding.md` R80). No form changes a register. -/

namespace Sys2Proof.Machine

/-- The second operand of ADD and AND, register form (`30_encoding.md` R86). -/
def State.regOperand (s : State) (r : Reg) : Word := s.reg r

/-- The second operand of ADD and AND, immediate form: `sext_5` of the field (`30_encoding.md` R87). -/
def immOperand (imm5 : BitVec 5) : Word := sext imm5

/-- PC-relative: `pc + sext_9`, for LD, ST, LEA, BR and the pointers of LDI and STI
(`42_load_store.md` R168). -/
def State.pcRel9 (s : State) (off9 : BitVec 9) : Word := s.pc + sext off9

/-- PC-relative long: `pc + sext_11`, for JSR (`42_load_store.md` R168). -/
def State.pcRel11 (s : State) (off11 : BitVec 11) : Word := s.pc + sext off11

/-- Base plus offset: `x[BaseR] + sext_6`, for LDR and STR (`42_load_store.md` R168). -/
def State.baseOff6 (s : State) (base : Reg) (off6 : BitVec 6) : Word := s.reg base + sext off6

/-- PC-relative indirect: the Word read at `pc + sext_9`, for LDI and STI (`42_load_store.md` R168).
The read goes through the intercept; the state it leaves is `afterPointer`. -/
def State.indirect9 (s : State) (off9 : BitVec 9) : Word := s.memRead (s.pcRel9 off9)

/-- The state the pointer read of LDI and STI leaves (`42_load_store.md` R161, R165). -/
def State.afterPointer (s : State) (off9 : BitVec 9) : State := s.afterRead (s.pcRel9 off9)

end Sys2Proof.Machine
end

