-- ==== Sys2Proof/Machine/Control.lean ====
section
/-! DEFINITION. BR, JMP, JSR and JSRR (`41_control.md`). No delay slot, no flag written, and every
target is valid (R139). -/

namespace Sys2Proof.Machine

/-- BR (`41_control.md` R140). -/
def execBr (nzp : BitVec 3) (off9 : BitVec 9) (s : State) : Host.Outcome State Fault Refusal :=
  .next (if condMeets nzp s.cond then s.setPc (s.pcRel9 off9) else s)

/-- JMP, and RET as JMP R7 (`41_control.md` R141). -/
def execJmp (base : Reg) (s : State) : Host.Outcome State Fault Refusal :=
  .next (s.setPc (s.reg base))

/-- JSR: the return address in R7, and the target from the same `pc` (`41_control.md` R145). -/
def execJsr (off11 : BitVec 11) (s : State) : Host.Outcome State Fault Refusal :=
  .next (s.saveReturn.setPc (s.pcRel11 off11))

/-- JSRR: R7 is written before the base is read, so `JSRR R7` goes to the return address
(`41_control.md` R147). The order is the spec's decision D8: log entry 7, unsafe for `JSRR R7`. -/
def execJsrr (base : Reg) (s : State) : Host.Outcome State Fault Refusal :=
  .next (s.saveReturn.setPc (s.saveReturn.reg base))

end Sys2Proof.Machine
end

