-- ==== Sys2Proof/Machine/LoadStore.lean ====
section
/-! DEFINITION. LD, LDI, LDR, LEA, ST, STI and STR (`42_load_store.md`). Every read goes through the
intercept and every write is a plain store (`20_memory.md` R54, R57). -/

namespace Sys2Proof.Machine

/-- One Word loaded into a register, flags set on it: the end of every load. -/
def State.loadInto (s : State) (dr : Reg) (ea : Word) : State :=
  (s.afterRead ea).writeResult dr (s.memRead ea)

/-- LD (`42_load_store.md` R160). -/
def execLd (dr : Reg) (off9 : BitVec 9) (s : State) : Host.Outcome State Fault Refusal :=
  .next (s.loadInto dr (s.pcRel9 off9))

/-- LDI: the pointer is read first, then the data (`42_load_store.md` R161). -/
def execLdi (dr : Reg) (off9 : BitVec 9) (s : State) : Host.Outcome State Fault Refusal :=
  .next ((s.afterPointer off9).loadInto dr (s.indirect9 off9))

/-- LDR (`42_load_store.md` R162). -/
def execLdr (dr base : Reg) (off6 : BitVec 6) (s : State) : Host.Outcome State Fault Refusal :=
  .next (s.loadInto dr (s.baseOff6 base off6))

/-- LEA: an address computation, no memory access; flags are set (`42_load_store.md` R163). -/
def execLea (dr : Reg) (off9 : BitVec 9) (s : State) : Host.Outcome State Fault Refusal :=
  .next (s.writeResult dr (s.pcRel9 off9))

/-- ST (`42_load_store.md` R164). -/
def execSt (sr : Reg) (off9 : BitVec 9) (s : State) : Host.Outcome State Fault Refusal :=
  .next (s.memWrite (s.pcRel9 off9) (s.reg sr))

/-- STI: the stored value is read after the pointer (`42_load_store.md` R165). -/
def execSti (sr : Reg) (off9 : BitVec 9) (s : State) : Host.Outcome State Fault Refusal :=
  let t := s.afterPointer off9
  .next (t.memWrite (s.indirect9 off9) (t.reg sr))

/-- STR (`42_load_store.md` R166). -/
def execStr (sr base : Reg) (off6 : BitVec 6) (s : State) : Host.Outcome State Fault Refusal :=
  .next (s.memWrite (s.baseOff6 base off6) (s.reg sr))

end Sys2Proof.Machine
end

