-- ==== Sys2Proof/Machine/Operate.lean ====
section
/-! DEFINITION. ADD, AND and NOT (`40_operate.md`). Sources are read before the destination is written;
arithmetic wraps and raises nothing (R118, R119). -/

namespace Sys2Proof.Machine

/-- ADD, register form (`40_operate.md` R120). -/
def execAddReg (dr sr1 sr2 : Reg) (s : State) : Host.Outcome State Fault Refusal :=
  .next (s.writeResult dr (s.reg sr1 + s.regOperand sr2))

/-- ADD, immediate form (`40_operate.md` R121). -/
def execAddImm (dr sr1 : Reg) (imm5 : BitVec 5) (s : State) : Host.Outcome State Fault Refusal :=
  .next (s.writeResult dr (s.reg sr1 + immOperand imm5))

/-- AND, register form (`40_operate.md` R122). -/
def execAndReg (dr sr1 sr2 : Reg) (s : State) : Host.Outcome State Fault Refusal :=
  .next (s.writeResult dr (s.reg sr1 &&& s.regOperand sr2))

/-- AND, immediate form (`40_operate.md` R123). -/
def execAndImm (dr sr1 : Reg) (imm5 : BitVec 5) (s : State) : Host.Outcome State Fault Refusal :=
  .next (s.writeResult dr (s.reg sr1 &&& immOperand imm5))

/-- NOT (`40_operate.md` R124). -/
def execNotReg (dr sr : Reg) (s : State) : Host.Outcome State Fault Refusal :=
  .next (s.writeResult dr (~~~(s.reg sr)))

end Sys2Proof.Machine
end

