-- ==== Sys2Proof/Machine/Reserved.lean ====
section
/-! DEFINITION. The two reserved opcodes: each takes the fatal IllegalOpcodeFault, whatever its other
twelve bits (`60_exceptions.md` R222, `30_encoding.md` R89). -/

namespace Sys2Proof.Machine

/-- The reserved opcode 0x8 (`60_exceptions.md` R222). -/
def execReserved8 (rest : BitVec 12) (s : State) : Host.Outcome State Fault Refusal :=
  .next (s.illegalOpcode (encode (.reserved8 rest)))

/-- The reserved opcode 0xD (`60_exceptions.md` R222). -/
def execReservedD (rest : BitVec 12) (s : State) : Host.Outcome State Fault Refusal :=
  .next (s.illegalOpcode (encode (.reservedD rest)))

end Sys2Proof.Machine
end

