-- ==== Sys2Proof/Machine/Trap.lean ====
section
/-! DEFINITION. TRAP and its six services, fixed logic inside the one step (`43_trap.md` R190, R191,
R205). Every service runs on the state in which R7 already holds the return address. -/

namespace Sys2Proof.Machine

/-! ## The services, without the save of R7 -/

/-- A character read by a service lands in R0 zero-extended, with the flags set on R0
(`43_trap.md` R192, R197). -/
def State.charToR0 (s : State) (c : Byte) : State := s.writeResult 0 (zext8 c)

/-- GETC (`43_trap.md` R192). It waits forever when the input has ended (`70_reset_and_hazards.md` R265). -/
def getcService (s : State) : Host.Outcome State Fault Refusal :=
  match s.readChar with
  | some (c, t) => .next (t.charToR0 c)
  | none => .fault .inputNeverComes

/-- OUT (`43_trap.md` R194). -/
def outService (s : State) : Host.Outcome State Fault Refusal :=
  .next (s.writeChar (lowByte (s.reg 0)))

/-! ### Strings -/

/-- The bytes PUTS writes for one Word: its low byte; a zero Word is the terminator (`43_trap.md` R196). -/
def putsChars (w : Word) : Option (List Byte) := if w = 0 then none else some [lowByte w]

/-- The bytes PUTSP writes for one Word whose low byte is not zero: the low one, then the high one
unless it is zero (`43_trap.md` R199). -/
def packedChars (w : Word) : List Byte :=
  if highByte w = 0 then [lowByte w] else [lowByte w, highByte w]

/-- The same for PUTSP: a Word whose low byte is zero is the terminator, whatever its high byte
(`43_trap.md` R199, log entry 13). -/
def putspChars (w : Word) : Option (List Byte) := if lowByte w = 0 then none else some (packedChars w)

/-- Where a string scan stands: it has read a terminator, or it goes on at an address. -/
inductive Scan where
  | ended (s : State)
  | going (a : Word) (s : State)

/-- The loop of PUTS and PUTSP from address `a`, over at most `n` Words (`43_trap.md` R196, R199). Reads
go through the intercept and the address wraps (decisions D11, D12: log entry 12). -/
def scan (chars : Word → Option (List Byte)) : Nat → Word → State → Scan
  | 0, a, s => .going a s
  | n + 1, a, s =>
    match chars (s.memRead a) with
    | none => .ended (s.afterRead a)
    | some bs => scan chars n (a + 1) ((s.afterRead a).writeChars bs)

/-- The loop over the whole memory, `rounds` times over: none when it still goes on. -/
def scanRounds (chars : Word → Option (List Byte)) : Nat → Word → State → Option State
  | 0, _, _ => none
  | rounds + 1, a, s =>
    match scan chars 65536 a s with
    | .ended t => some t
    | .going b t => scanRounds chars rounds b t

/-- How many rounds of memory decide whether a string scan ever ends. A round polls the console once.
Each poll that finds input uses up a scripted answer, a scripted character, a true answer of a run or a
character of a run, until nothing the host does can change; a round that passes then is repeated for
ever. So a scan that goes on after these rounds never ends (log entry 11). -/
def Ports.scanBound (p : Ports) : Nat :=
  p.polls.length + p.keys.length + (p.freePolls.yeses Config.hostPollRun).getD 0 +
    (p.freeText.yeses Config.hostTextRun).getD 0 + 2

/-- A service that writes the string at R0: the loop's end, or the stuck state when it has none ("PUTS
never ends", `43_trap.md` R196). -/
def stringService (chars : Word → Option (List Byte)) (s : State) : Host.Outcome State Fault Refusal :=
  match scanRounds chars s.ports.scanBound (s.reg 0) s with
  | some t => .next t
  | none => .fault .stringNeverEnds

/-- PUTS (`43_trap.md` R196). -/
def putsService (s : State) : Host.Outcome State Fault Refusal := stringService putsChars s

/-- IN: the prompt, then a character read, echoed and kept (`43_trap.md` R197). When it waits forever the
prompt is not shown: a fault carries no state (log entry 24). -/
def inService (s : State) : Host.Outcome State Fault Refusal :=
  match (s.writeChars Config.inPrompt).readChar with
  | some (c, t) => .next ((t.writeChar c).charToR0 c)
  | none => .fault .inputNeverComes

/-- PUTSP (`43_trap.md` R199). Its loop always ends: KBSR reads as 0x8000 or 0x0000. -/
def putspService (s : State) : Host.Outcome State Fault Refusal := stringService putspChars s

/-- HALT: the notice on the diagnostic channel, then the run ends (`43_trap.md` R201, log entry 14). -/
def haltService (s : State) : Host.Outcome State Fault Refusal :=
  .next ((s.emitDiag .haltNotice).setRun .halted)

/-- A code without a service: the event on the diagnostic channel and nothing else (`43_trap.md` R203).
Not fatal by the source's own choice, log entry 25, unsafe. -/
def unknownService (code : BitVec 8) (s : State) : Host.Outcome State Fault Refusal :=
  .next (s.emitDiag (.unknownTrap code))

/-! ## The instructions -/

/-- GETC, code 0x20 (`43_trap.md` R190, R192). -/
def execGetc (s : State) : Host.Outcome State Fault Refusal := getcService s.saveReturn

/-- OUT, code 0x21 (`43_trap.md` R190, R194). -/
def execOut (s : State) : Host.Outcome State Fault Refusal := outService s.saveReturn

/-- PUTS, code 0x22 (`43_trap.md` R190, R196). -/
def execPuts (s : State) : Host.Outcome State Fault Refusal := putsService s.saveReturn

/-- IN, code 0x23 (`43_trap.md` R190, R197). -/
def execInTrap (s : State) : Host.Outcome State Fault Refusal := inService s.saveReturn

/-- PUTSP, code 0x24 (`43_trap.md` R190, R199). -/
def execPutsp (s : State) : Host.Outcome State Fault Refusal := putspService s.saveReturn

/-- HALT, code 0x25 (`43_trap.md` R190, R201). -/
def execHalt (s : State) : Host.Outcome State Fault Refusal := haltService s.saveReturn

/-- TRAP with a code that has no service (`43_trap.md` R190, R203). -/
def execTrapUnknown (code : BitVec 8) (s : State) : Host.Outcome State Fault Refusal :=
  unknownService code s.saveReturn

/-- TRAP in its general spelling: R7, then the service of the code (`43_trap.md` R190). -/
def execTrap (code : BitVec 8) (s : State) : Host.Outcome State Fault Refusal :=
  let t := s.saveReturn
  if code = 0x20 then getcService t
  else if code = 0x21 then outService t
  else if code = 0x22 then putsService t
  else if code = 0x23 then inService t
  else if code = 0x24 then putspService t
  else if code = 0x25 then haltService t
  else unknownService code t

end Sys2Proof.Machine
end

