-- ==== Sys2Proof/Machine/Step.lean ====
section
/-! DEFINITION. One step of the block (`30_encoding.md` R80): the cycle of `Cycle.lean`, the decoder and
the dispatch, joined. -/

namespace Sys2Proof.Machine

/-- One step: boot, or one whole instruction, or the stop (`30_encoding.md` R80, R81). -/
def step (s : State) : Host.Outcome State Fault Refusal :=
  match s.turn with
  | .execute ir t => exec (decodeWord ir) t
  | .settled o => o

/-- The state with the table's word `w` of `nbits` bits placed where the next step fetches; it stands
for a loaded program (log entry 21). Every instruction is one Word, so the bits above `nbits` are 0. -/
def State.withFetchWord (s : State) (nbits w : Nat) : State :=
  s.placeForFetch (BitVec.ofNat 16 (w % 2 ^ nbits))

end Sys2Proof.Machine
end

