-- ==== Sys2Proof/Machine/HostInterface.lean ====
section
/-! DEFINITION. What the host sees of a state: console output, the diagnostic channel, the status port
and the exit code (`10_state.md` R38, R39, R41, `70_reset_and_hazards.md` R262), and the labels of the
run events (`60_exceptions.md` R220). -/

namespace Sys2Proof.Machine

/-- The byte a port transaction adds to the console output (`10_state.md` R38). -/
def PortEvent.outputByte : PortEvent → Option Byte
  | .writeChar b => some b
  | .pollInput _ => none
  | .readChar _ => none
  | .diag _ => none

/-- The event a port transaction adds to the diagnostic channel (`10_state.md` R39). -/
def PortEvent.diagEvent : PortEvent → Option DiagEvent
  | .diag e => some e
  | .pollInput _ => none
  | .readChar _ => none
  | .writeChar _ => none

/-- The console output so far: the bytes passed to `WriteChar`, in order (`10_state.md` R38). -/
def State.output (s : State) : List Byte := s.ports.trace.filterMap PortEvent.outputByte

/-- The events on the diagnostic channel so far (`10_state.md` R39). -/
def State.diag (s : State) : List DiagEvent := s.ports.trace.filterMap PortEvent.diagEvent

/-- The text of a diagnostic event where the spec has a parameter for it (`43_trap.md` R201). -/
def DiagEvent.text : DiagEvent → Option (List Byte)
  | .haltNotice => some Config.haltNotice
  | .unknownTrap _ => none

/-- The status port: `run`, and the fault record in FAULTED (`10_state.md` R41). -/
def State.status (s : State) : RunState × Option FaultInfo :=
  (s.run, if s.run = .faulted then s.faultInfo else none)

/-- The exit code of a run that has ended (`70_reset_and_hazards.md` R262). -/
def State.exitCode (s : State) : Option Int :=
  match s.run with
  | .booting => none
  | .running => none
  | .halted => some 0
  | .faulted => some Config.faultExitCode
  | .stopped => some Config.stopExitCode

/-- The exit code of a boot that failed (`70_reset_and_hazards.md` R258, R262). -/
def Fault.exitCode : Fault → Option Int
  | .loadError => some 1
  | .usageError => some 2
  | .notRunning _ => none
  | .inputNeverComes => none
  | .stringNeverEnds => none

/-- The events that end or mark a run (`60_exceptions.md` R220). -/
inductive RunEvent where
  | none | haltRequested | illegalOpcodeFault | unknownTrapCode | stopRequested
  deriving DecidableEq, Repr

/-- The labels of the run events (`60_exceptions.md` R220, decision D17); nothing reads them. -/
def RunEvent.code : RunEvent → Nat
  | .none => 0
  | .haltRequested => 1
  | .illegalOpcodeFault => 2
  | .unknownTrapCode => 3
  | .stopRequested => 4

/-- The event that ended a run, by its run state (`60_exceptions.md` R220). -/
def RunState.event : RunState → RunEvent
  | .booting => .none
  | .running => .none
  | .halted => .haltRequested
  | .faulted => .illegalOpcodeFault
  | .stopped => .stopRequested

end Sys2Proof.Machine
end

