-- ==== Sys2Proof/Safety.lean ====
section
/-! DEFINITION. The terms claims are stated in: the invariant of the block, what a frame keeps, the sign
of a Word, and what a safe run is. -/

namespace Sys2Proof.Machine

/-! ## What a frame keeps -/

/-- Every general register outside the list is unchanged. -/
def KeepsRegsBut (written : List Reg) (s t : State) : Prop := ∀ r, r ∉ written → t.reg r = s.reg r

/-- Every Word of memory outside the list of addresses is unchanged. -/
def KeepsMemoryBut (stored : List Word) (s t : State) : Prop :=
  ∀ a, a ∉ stored → t.word a = s.word a

/-- The run state, the fault record and the sampled stop request are unchanged. -/
def KeepsRunControl (s t : State) : Prop :=
  t.run = s.run ∧ t.faultInfo = s.faultInfo ∧ t.stopReq = s.stopReq

/-- `c` is the condition code of the value `v` read as two's complement: `10_state.md` R27 said through
the sign of the number, not through bit 15. -/
def IsCondOf (v : Word) (c : Cond) : Prop :=
  (c = .zero ↔ v.toInt = 0) ∧ (c = .negative ↔ v.toInt < 0) ∧ (c = .positive ↔ 0 < v.toInt)

/-- What a flag-setting instruction with a result does: the result in `dr`, `cond` from it, and nothing
else (`10_state.md` R28). -/
structure WritesOnly (dr : Reg) (v : Word) (s t : State) : Prop where
  result : t.reg dr = v
  flags : IsCondOf v t.cond
  regs : KeepsRegsBut [dr] s t
  pc : t.pc = s.pc
  mem : KeepsMemoryBut [] s t
  control : KeepsRunControl s t
  ports : t.ports = s.ports

/-- What a control transfer does: `pc` at the target, the registers of `linked` written elsewhere, and
nothing else (`41_control.md` R139). -/
structure GoesTo (linked : List Reg) (target : Word) (s t : State) : Prop where
  pc : t.pc = target
  regs : KeepsRegsBut linked s t
  cond : t.cond = s.cond
  mem : KeepsMemoryBut [] s t
  control : KeepsRunControl s t
  ports : t.ports = s.ports

/-- What a load from `ea` does: the Word `MemRead` returns in `dr`, `cond` from it, the read's own
effect on memory and the ports, and nothing else. Anywhere but at KBSR the read returns the stored
Word and has no effect (`20_memory.md` R54, R56). -/
structure LoadsFrom (dr : Reg) (ea : Word) (s t : State) : Prop where
  result : t.reg dr = s.memRead ea
  flags : IsCondOf (s.memRead ea) t.cond
  regs : KeepsRegsBut [dr] s t
  pc : t.pc = s.pc
  mem : KeepsMemoryBut [] (s.afterRead ea) t
  control : KeepsRunControl s t
  ports : t.ports = (s.afterRead ea).ports
  plain : ea ≠ Config.kbsr → t.reg dr = s.word ea ∧ KeepsMemoryBut [] s t ∧ t.ports = s.ports

/-- What a store of `v` at `ea` does: that Word, and nothing else (`20_memory.md` R57). -/
structure StoresAt (ea v : Word) (s t : State) : Prop where
  stored : s.mem.wf → t.word ea = v
  mem : KeepsMemoryBut [ea] s t
  regs : KeepsRegsBut [] s t
  pc : t.pc = s.pc
  cond : t.cond = s.cond
  control : KeepsRunControl s t
  ports : t.ports = s.ports

/-- What every trap service leaves alone but for `run`: `pc`, the registers outside `written`, memory
but for the keyboard's two Words, the fault record and the stop request; and it adds `events` to the
ports (`43_trap.md` R205). -/
structure ServiceFrame (written : List Reg) (events : List PortEvent) (s t : State) : Prop where
  link : t.reg 7 = s.pc
  regs : KeepsRegsBut written s t
  pc : t.pc = s.pc
  mem : KeepsMemoryBut [] s t
  fault : t.faultInfo = s.faultInfo
  stop : t.stopReq = s.stopReq
  trace : t.ports.trace = s.ports.trace ++ events

/-! ## Strings -/

/-- The Words `ws` stand at `a` and after it, none is a terminator of PUTS, a zero Word follows them,
and KBSR is not among them (`43_trap.md` R196). -/
def PutsString (s : State) : Word → List Word → Prop
  | a, [] => a ≠ Config.kbsr ∧ s.word a = 0
  | a, w :: ws => a ≠ Config.kbsr ∧ s.word a = w ∧ w ≠ 0 ∧ PutsString s (a + 1) ws

/-- The same for PUTSP, whose terminator is a Word with a zero low byte (`43_trap.md` R199). -/
def PutspString (s : State) : Word → List Word → Prop
  | a, [] => a ≠ Config.kbsr ∧ lowByte (s.word a) = 0
  | a, w :: ws => a ≠ Config.kbsr ∧ s.word a = w ∧ lowByte w ≠ 0 ∧ PutspString s (a + 1) ws

/-- The loop of PUTS (`43_trap.md` R196) over `n` Words before its terminator, from the address `a` and
the state `s` to the state `t`. Every read goes through the intercept, KBSR's too. -/
inductive PutsLoop : Nat → Word → State → State → Prop where
  | done {a : Word} {s : State} : s.memRead a = 0 → PutsLoop 0 a s (s.afterRead a)
  | pass {n : Nat} {a : Word} {s t : State} : s.memRead a ≠ 0 →
      PutsLoop n (a + 1) ((s.afterRead a).writeChar (lowByte (s.memRead a))) t →
      PutsLoop (n + 1) a s t

/-- The loop of PUTSP (`43_trap.md` R199), likewise. -/
inductive PutspLoop : Nat → Word → State → State → Prop where
  | done {a : Word} {s : State} : lowByte (s.memRead a) = 0 → PutspLoop 0 a s (s.afterRead a)
  | pass {n : Nat} {a : Word} {s t : State} : lowByte (s.memRead a) ≠ 0 →
      PutspLoop n (a + 1) ((s.afterRead a).writeChars (packedChars (s.memRead a))) t →
      PutspLoop (n + 1) a s t

/-- Some string of PUTS stands at `a`. -/
def HasPutsString (s : State) (a : Word) : Prop := ∃ ws, PutsString s a ws

/-! ## What the spec's tables say of an instruction -/

/-- The register whose value an instruction sets the flags from, if it sets them (`10_state.md` R28). -/
def flagReg : Instr → Option Reg
  | .addReg dr _ _ => some dr
  | .addImm dr _ _ => some dr
  | .andReg dr _ _ => some dr
  | .andImm dr _ _ => some dr
  | .notReg dr _ => some dr
  | .ld dr _ => some dr
  | .ldi dr _ => some dr
  | .ldr dr _ _ => some dr
  | .lea dr _ => some dr
  | .getc => some 0
  | .inTrap => some 0
  | .trap code => if code = 0x20 ∨ code = 0x23 then some 0 else none
  | .br _ _ => none
  | .jmp _ => none
  | .jsr _ => none
  | .jsrr _ => none
  | .st _ _ => none
  | .sti _ _ => none
  | .str _ _ _ => none
  | .reserved8 _ => none
  | .reservedD _ => none
  | .out => none
  | .puts => none
  | .putsp => none
  | .halt => none
  | .trapUnknown _ => none

/-- The general registers an instruction may write (`10_state.md` R23). -/
def writtenRegs : Instr → List Reg
  | .addReg dr _ _ => [dr]
  | .addImm dr _ _ => [dr]
  | .andReg dr _ _ => [dr]
  | .andImm dr _ _ => [dr]
  | .notReg dr _ => [dr]
  | .ld dr _ => [dr]
  | .ldi dr _ => [dr]
  | .ldr dr _ _ => [dr]
  | .lea dr _ => [dr]
  | .jsr _ => [7]
  | .jsrr _ => [7]
  | .getc => [7, 0]
  | .inTrap => [7, 0]
  | .trap code => if code = 0x20 ∨ code = 0x23 then [7, 0] else [7]
  | .out => [7]
  | .puts => [7]
  | .putsp => [7]
  | .halt => [7]
  | .trapUnknown _ => [7]
  | .br _ _ => []
  | .jmp _ => []
  | .st _ _ => []
  | .sti _ _ => []
  | .str _ _ _ => []
  | .reserved8 _ => []
  | .reservedD _ => []

/-- Where an instruction stores, if it is one that stores (`20_memory.md` R59): the effective address
its meaning computes (`42_load_store.md` R164 to R166). -/
def storeAddress (s : State) : Instr → Option Word
  | .st _ off9 => some (s.pcRel9 off9)
  | .sti _ off9 => some (s.indirect9 off9)
  | .str _ base off6 => some (s.baseOff6 base off6)
  | .addReg _ _ _ => none
  | .addImm _ _ _ => none
  | .andReg _ _ _ => none
  | .andImm _ _ _ => none
  | .notReg _ _ => none
  | .br _ _ => none
  | .jmp _ => none
  | .jsr _ => none
  | .jsrr _ => none
  | .ld _ _ => none
  | .ldi _ _ => none
  | .ldr _ _ _ => none
  | .lea _ _ => none
  | .trap _ => none
  | .reserved8 _ => none
  | .reservedD _ => none
  | .getc => none
  | .out => none
  | .puts => none
  | .inTrap => none
  | .putsp => none
  | .halt => none
  | .trapUnknown _ => none

/-- The instructions that move `pc` themselves (`41_control.md`). -/
def movesPc : Instr → Bool
  | .br _ _ => true
  | .jmp _ => true
  | .jsr _ => true
  | .jsrr _ => true
  | .addReg _ _ _ => false
  | .addImm _ _ _ => false
  | .andReg _ _ _ => false
  | .andImm _ _ _ => false
  | .notReg _ _ => false
  | .ld _ _ => false
  | .ldi _ _ => false
  | .ldr _ _ _ => false
  | .lea _ _ => false
  | .st _ _ => false
  | .sti _ _ => false
  | .str _ _ _ => false
  | .trap _ => false
  | .reserved8 _ => false
  | .reservedD _ => false
  | .getc => false
  | .out => false
  | .puts => false
  | .inTrap => false
  | .putsp => false
  | .halt => false
  | .trapUnknown _ => false

/-- The instructions that write to the console: OUT, PUTS, IN and PUTSP, in either spelling
(`10_state.md` R38). -/
def writesConsole (i : Instr) : Bool :=
  decide (i.resolve = .out ∨ i.resolve = .puts ∨ i.resolve = .inTrap ∨ i.resolve = .putsp)

/-! ## The invariant -/

/-- A fault record is that of an instruction with a reserved opcode (`10_state.md` R34,
`30_encoding.md` R89). -/
def FaultInfo.genuine (f : FaultInfo) : Prop :=
  f.opcode = f.instr.extractLsb' 12 4 ∧ (f.opcode = 0x8 ∨ f.opcode = 0xD)

/-- The invariant of the block: memory in canonical form, a fault record in FAULTED and nowhere else,
genuine and for the instruction before `pc` (`60_exceptions.md` R222), STOPPED only on a request
(`10_state.md` R33, R40), and in HALTED the return address in R7 and the notice last on the ports
(`43_trap.md` R201). -/
structure State.Inv (s : State) : Prop where
  mem_wf : s.mem.wf
  fault_iff : s.run = .faulted ↔ s.faultInfo.isSome
  fault_genuine : ∀ f, s.faultInfo = some f → f.genuine ∧ s.pc = f.addr + 1
  stop_requested : s.run = .stopped → s.stopReq = true
  halt_return : s.run = .halted → s.reg 7 = s.pc
  halt_notice : s.run = .halted → s.ports.trace.getLast? = some (.diag .haltNotice)

/-! ## Safe runs -/

/-- The states a run from `s` passes through. -/
inductive Reaches (s : State) : State → Prop where
  | start : Reaches s s
  | next {t u : State} : Reaches s t → step t = .next u → Reaches s u

/-- A run is safe when nothing it reaches ends in an IllegalOpcodeFault or in one of the model's stuck
states; it may end by HALT or a stop, or go on forever (`30_encoding.md` R81). -/
def SafeFrom (s : State) : Prop :=
  ∀ t, Reaches s t → t.run ≠ .faulted ∧
    ∀ f, step t = .fault f → f = .notRunning .halted ∨ f = .notRunning .stopped

end Sys2Proof.Machine
end

