-- ==== Sys2Proof/Certificates/Slice0/Obligations.lean ====
section
/-! DEFINITION. The statements for the provers. Each docstring names the rule of spec/ it formalises or
rests on; a clause that rests on a choice says so and names the log entry. -/

open Sys2Proof Sys2Proof.Machine

/-! ## Encoding -/

/-- Words of the spec's worked examples and vectors (`95_test_vectors.md` V3 to V8) decode to the
instructions they stand for. The numbers and positions are the spec's decisions D1, D2 (log entry 5). -/
def Obligations.SpecWordsDecode : Prop :=
  decodeWord 0x1042 = .addReg 0 1 2 ∧ decodeWord 0x107F = .addImm 0 1 0b11111 ∧
  decodeWord 0x54C4 = .andReg 2 3 4 ∧ decodeWord 0x5270 = .andImm 1 1 0b10000 ∧
  decodeWord 0x96BF = .notReg 3 2 ∧ decodeWord 0x05FB = .br 0b010 0b111111011 ∧
  decodeWord 0xC1C0 = .jmp 7 ∧ decodeWord 0x480F = .jsr 15 ∧ decodeWord 0x40C0 = .jsrr 3 ∧
  decodeWord 0x2404 = .ld 2 4 ∧ decodeWord 0xA601 = .ldi 3 1 ∧ decodeWord 0x6B3F = .ldr 5 4 0b111111 ∧
  decodeWord 0xE002 = .lea 0 2 ∧ decodeWord 0x3210 = .st 1 16 ∧ decodeWord 0xBC01 = .sti 6 1 ∧
  decodeWord 0x76B0 = .str 3 2 0b110000 ∧ decodeWord 0xF020 = .getc ∧ decodeWord 0xF021 = .out ∧
  decodeWord 0xF022 = .puts ∧ decodeWord 0xF023 = .inTrap ∧ decodeWord 0xF024 = .putsp ∧
  decodeWord 0xFF25 = .halt ∧ decodeWord 0xF026 = .trapUnknown 0x26 ∧
  decodeWord 0x8000 = .reserved8 0 ∧ decodeWord 0xDFFF = .reservedD 0xFFF

/-- Decoding an instruction's own Word gives the instruction back, with every operand at every value;
TRAP's general spelling, whose words are those of the seven other rows of opcode 0xF, gives the row of
its code (`30_encoding.md` R85, R88, `43_trap.md` R190, log entries 5 and 20). -/
def Obligations.DecodeReversesEncode : Prop :=
  ∀ i : Instr, i.wellFormed = true →
    ((∀ code, i ≠ .trap code) → decodeWord (encode i) = i) ∧
    (∀ code, i = .trap code → decodeWord (encode i) = decodeTrap code)

/-- Two Words that agree on the bits their format uses decode alike (`30_encoding.md` R84; the
positions and the don't-care rule are decisions D2, D3, log entries 5 and 6). -/
def Obligations.DontCareBitsAreIgnored : Prop :=
  ∀ w w' : Word, w &&& usedBits w = w' &&& usedBits w → decodeWord w' = decodeWord w

/-- No used bit of a Word is dropped or moved by the decoder: encoding what it answers gives every used
bit back, and what it answers is well formed (`30_encoding.md` R82, R85, log entry 5). -/
def Obligations.EncodeRestoresEveryUsedBit : Prop :=
  ∀ w : Word, encode (decodeWord w) &&& usedBits w = w &&& usedBits w ∧
    (decodeWord w).wellFormed = true

/-- A Word is illegal exactly when bits 15:12 are 0x8 or 0xD, whatever its other bits
(`30_encoding.md` R89; the two values are decision D1, log entry 5). -/
def Obligations.IllegalExactlyAtReservedOpcodes : Prop :=
  ∀ w : Word,
    ((∃ rest, decodeWord w = .reserved8 rest) ↔ w.extractLsb' 12 4 = 0x8) ∧
    ((∃ rest, decodeWord w = .reservedD rest) ↔ w.extractLsb' 12 4 = 0xD)

/-- Every row of the opcode table: a Word that matches the row under its mask is the row's instruction,
its fields read at the positions of `30_encoding.md` R86 (decisions D1, D2, log entry 5). -/
def Obligations.EveryTableRowDecodes : Prop :=
  ∀ w : Word,
    let dr : Reg := (w.extractLsb' 9 3).toFin
    let sr1 : Reg := (w.extractLsb' 6 3).toFin
    let sr2 : Reg := (w.extractLsb' 0 3).toFin
    let off9 := w.extractLsb' 0 9
    let off6 := w.extractLsb' 0 6
    let imm5 := w.extractLsb' 0 5
    let code := w.extractLsb' 0 8
    (w &&& 0xF020 = 0x1000 → decodeWord w = .addReg dr sr1 sr2) ∧
    (w &&& 0xF020 = 0x1020 → decodeWord w = .addImm dr sr1 imm5) ∧
    (w &&& 0xF020 = 0x5000 → decodeWord w = .andReg dr sr1 sr2) ∧
    (w &&& 0xF020 = 0x5020 → decodeWord w = .andImm dr sr1 imm5) ∧
    (w &&& 0xF000 = 0x9000 → decodeWord w = .notReg dr sr1) ∧
    (w &&& 0xF000 = 0x0000 → decodeWord w = .br (w.extractLsb' 9 3) off9) ∧
    (w &&& 0xF000 = 0xC000 → decodeWord w = .jmp sr1) ∧
    (w &&& 0xF800 = 0x4800 → decodeWord w = .jsr (w.extractLsb' 0 11)) ∧
    (w &&& 0xF800 = 0x4000 → decodeWord w = .jsrr sr1) ∧
    (w &&& 0xF000 = 0x2000 → decodeWord w = .ld dr off9) ∧
    (w &&& 0xF000 = 0xA000 → decodeWord w = .ldi dr off9) ∧
    (w &&& 0xF000 = 0x6000 → decodeWord w = .ldr dr sr1 off6) ∧
    (w &&& 0xF000 = 0xE000 → decodeWord w = .lea dr off9) ∧
    (w &&& 0xF000 = 0x3000 → decodeWord w = .st dr off9) ∧
    (w &&& 0xF000 = 0xB000 → decodeWord w = .sti dr off9) ∧
    (w &&& 0xF000 = 0x7000 → decodeWord w = .str dr sr1 off6) ∧
    (w &&& 0xF000 = 0x8000 → decodeWord w = .reserved8 (w.extractLsb' 0 12)) ∧
    (w &&& 0xF000 = 0xD000 → decodeWord w = .reservedD (w.extractLsb' 0 12)) ∧
    (w &&& 0xF0FF = 0xF020 → decodeWord w = .getc) ∧
    (w &&& 0xF0FF = 0xF021 → decodeWord w = .out) ∧
    (w &&& 0xF0FF = 0xF022 → decodeWord w = .puts) ∧
    (w &&& 0xF0FF = 0xF023 → decodeWord w = .inTrap) ∧
    (w &&& 0xF0FF = 0xF024 → decodeWord w = .putsp) ∧
    (w &&& 0xF0FF = 0xF025 → decodeWord w = .halt) ∧
    (w &&& 0xF000 = 0xF000 → ¬ (0x20 ≤ code ∧ code ≤ 0x25) → decodeWord w = .trapUnknown code)

/-! ## Extension and condition code -/

/-- `sext_N` as the rule gives it, for the four widths the instruction set uses: bits from N up are the
sign bit, bits below are the field's, the value is `f - (f[N-1] << N)` modulo 2^16, and so the number
is the field's number (`00_scope.md` R5). Beside it, what a character keeps of a Word and a Word of a
character: `zext_8` is the character's number (R6), and the low and the high byte are bits 7:0 and 15:8
of the Word (`20_memory.md` R60, R61). -/
def Obligations.SignExtensionIsExact : Prop :=
  let exact (n : Nat) : Prop := ∀ f : BitVec n,
    (∀ k, k < 16 → (sext f).getLsbD k = if k < n then f.getLsbD k else f.getLsbD (n - 1)) ∧
    sext f = f.setWidth 16 - ((BitVec.ofBool (f.getLsbD (n - 1))).setWidth 16 <<< n) ∧
    (sext f).toInt = f.toInt
  exact 5 ∧ exact 6 ∧ exact 9 ∧ exact 11 ∧ sext 0b10000#5 = 0xFFF0 ∧
  (∀ c : Byte, (zext8 c).toNat = c.toNat) ∧
  ∀ w : Word, (lowByte w).toNat = w.toNat % 256 ∧ (highByte w).toNat = w.toNat / 256

/-- SetCC (`10_state.md` R27): ZERO for 0x0000, else NEGATIVE when bit 15 is 1, else POSITIVE; a pure
function of the register's current value; `cond` is all it writes. -/
def Obligations.SetCCClassifiesTheRegister : Prop :=
  (∀ (s : State) (r : Reg),
    (s.setCC r).cond =
      (if s.reg r = 0x0000 then .zero else if (s.reg r).getLsbD 15 then .negative else .positive) ∧
    (s.setCC r).setCond s.cond = s) ∧
  ∀ (s t : State) (r q : Reg), s.reg r = t.reg q → (s.setCC r).cond = (t.setCC q).cond

/-! ## Operate instructions -/

/-- ADD, both forms (`40_operate.md` R119, R120, R121): the sum modulo 2^16 in DR, the flags from it,
nothing else. -/
def Obligations.AddWritesTheWrappedSum : Prop :=
  ∀ (s : State) (dr sr1 : Reg),
    (∀ sr2 : Reg, ∃ t v, exec (.addReg dr sr1 sr2) s = .next t ∧ WritesOnly dr v s t ∧
      v.toNat = ((s.reg sr1).toNat + (s.reg sr2).toNat) % 65536) ∧
    (∀ imm5 : BitVec 5, ∃ t v, exec (.addImm dr sr1 imm5) s = .next t ∧ WritesOnly dr v s t ∧
      v.toNat = ((s.reg sr1).toNat + (sext imm5).toNat) % 65536)

/-- AND, both forms (`40_operate.md` R122, R123): the bitwise AND in DR, with the immediate
sign-extended first, the flags from it, nothing else. -/
def Obligations.AndWritesTheBitwiseAnd : Prop :=
  ∀ (s : State) (dr sr1 : Reg),
    (∀ sr2 : Reg, ∃ t v, exec (.andReg dr sr1 sr2) s = .next t ∧ WritesOnly dr v s t ∧
      ∀ k, k < 16 → v.getLsbD k = ((s.reg sr1).getLsbD k && (s.reg sr2).getLsbD k)) ∧
    (∀ imm5 : BitVec 5, ∃ t v, exec (.andImm dr sr1 imm5) s = .next t ∧ WritesOnly dr v s t ∧
      ∀ k, k < 16 → v.getLsbD k = ((s.reg sr1).getLsbD k && (sext imm5).getLsbD k))

/-- NOT (`40_operate.md` R124): all sixteen bits complemented in DR, the flags from it, nothing else. -/
def Obligations.NotComplementsEveryBit : Prop :=
  ∀ (s : State) (dr sr : Reg), ∃ t v, exec (.notReg dr sr) s = .next t ∧ WritesOnly dr v s t ∧
    ∀ k, k < 16 → v.getLsbD k = !(s.reg sr).getLsbD k

/-! ## Control transfer -/

/-- BR (`41_control.md` R140): the branch is taken exactly when the mask's bit for the current
condition is set, n the high bit, z the middle, p the low; nothing else changes. The bit assignment is
decision D4 (log entry 5). -/
def Obligations.BrFollowsTheConditionMask : Prop :=
  ∀ (s : State) (nzp : BitVec 3) (off9 : BitVec 9),
    let taken := (nzp.getLsbD 2 = true ∧ s.cond = .negative) ∨
      (nzp.getLsbD 1 = true ∧ s.cond = .zero) ∨ (nzp.getLsbD 0 = true ∧ s.cond = .positive)
    ∃ t, exec (.br nzp off9) s = .next t ∧
      (taken → GoesTo [] (s.pc + sext off9) s t) ∧ (¬ taken → GoesTo [] s.pc s t)

/-- JMP (`41_control.md` R141): `pc` from the base register, any register alike, R7 too; nothing else. -/
def Obligations.JmpGoesToTheBaseRegister : Prop :=
  ∀ (s : State) (base : Reg), ∃ t, exec (.jmp base) s = .next t ∧ GoesTo [] (s.reg base) s t

/-- JSR (`41_control.md` R145): the return address in R7 and the target from the same `pc`; no flag. -/
def Obligations.JsrLinksAndGoesPcRelative : Prop :=
  ∀ (s : State) (off11 : BitVec 11), ∃ t, exec (.jsr off11) s = .next t ∧
    t.reg 7 = s.pc ∧ GoesTo [7] (s.pc + sext off11) s t

/-- JSRR (`41_control.md` R147): the return address in R7, then `pc` from the base register; with base
R7 the return address itself. That clause is the spec's decision D8 (log entry 7). -/
def Obligations.JsrrLinksBeforeItReadsTheBase : Prop :=
  ∀ (s : State) (base : Reg), ∃ t, exec (.jsrr base) s = .next t ∧ t.reg 7 = s.pc ∧
    (base ≠ 7 → GoesTo [7] (s.reg base) s t) ∧ (base = 7 → GoesTo [7] s.pc s t)

/-! ## Loads and stores -/

/-- LD and LDR (`42_load_store.md` R160, R162): the Word at `pc + sext_9`, and the Word at
`x[BaseR] + sext_6`, the base read before DR is written. -/
def Obligations.LdAndLdrLoadFromTheirAddress : Prop :=
  ∀ (s : State) (dr : Reg),
    (∀ off9 : BitVec 9, ∃ t, exec (.ld dr off9) s = .next t ∧
      LoadsFrom dr (s.pc + sext off9) s t) ∧
    (∀ (base : Reg) (off6 : BitVec 6), ∃ t, exec (.ldr dr base off6) s = .next t ∧
      LoadsFrom dr (s.reg base + sext off6) s t)

/-- LDI (`42_load_store.md` R161): the pointer is read first, through the intercept, and the data at the
state that read leaves. -/
def Obligations.LdiLoadsThroughThePointer : Prop :=
  ∀ (s : State) (dr : Reg) (off9 : BitVec 9),
    let pa := s.pc + sext off9
    ∃ t, exec (.ldi dr off9) s = .next t ∧ LoadsFrom dr (s.memRead pa) (s.afterRead pa) t ∧
      KeepsRegsBut [dr] s t ∧ t.pc = s.pc ∧ KeepsRunControl s t ∧
      KeepsMemoryBut [Config.kbsr, Config.kbdr] s t ∧
      (pa ≠ Config.kbsr → s.word pa ≠ Config.kbsr →
        t.reg dr = s.word (s.word pa) ∧ KeepsMemoryBut [] s t ∧ t.ports = s.ports)

/-- LEA (`42_load_store.md` R163): the address itself in DR, flags set, no memory access and so no poll. -/
def Obligations.LeaWritesTheAddress : Prop :=
  ∀ (s : State) (dr : Reg) (off9 : BitVec 9), ∃ t, exec (.lea dr off9) s = .next t ∧
    WritesOnly dr (s.pc + sext off9) s t

/-- ST and STR (`42_load_store.md` R164, R166): SR at `pc + sext_9`, and at `x[BaseR] + sext_6`. -/
def Obligations.StAndStrStoreAtTheirAddress : Prop :=
  ∀ (s : State) (sr : Reg),
    (∀ off9 : BitVec 9, ∃ t, exec (.st sr off9) s = .next t ∧
      StoresAt (s.pc + sext off9) (s.reg sr) s t) ∧
    (∀ (base : Reg) (off6 : BitVec 6), ∃ t, exec (.str sr base off6) s = .next t ∧
      StoresAt (s.reg base + sext off6) (s.reg sr) s t)

/-- STI (`42_load_store.md` R165): the pointer read may poll; the store goes where it pointed. -/
def Obligations.StiStoresThroughThePointer : Prop :=
  ∀ (s : State) (sr : Reg) (off9 : BitVec 9),
    let pa := s.pc + sext off9
    ∃ t, exec (.sti sr off9) s = .next t ∧ StoresAt (s.memRead pa) (s.reg sr) (s.afterRead pa) t ∧
      KeepsRegsBut [] s t ∧ t.pc = s.pc ∧ t.cond = s.cond ∧ KeepsRunControl s t ∧
      (pa ≠ Config.kbsr → StoresAt (s.word pa) (s.reg sr) s t)

/-! ## Memory and the keyboard -/

/-- A read of KBSR (`20_memory.md` R54): with no input it leaves 0x0000 in KBSR, KBDR alone and one
`PollInput` on the ports; with input 0x8000 in KBSR, the next character zero-extended in KBDR, and one
`ReadChar` after the `PollInput`. It returns the stored Word, so exactly 0x8000 or 0x0000. -/
def Obligations.KbsrReadPollsTheConsole : Prop :=
  ∀ s : State, s.mem.wf →
    let t := s.afterRead Config.kbsr
    s.memRead Config.kbsr = t.word Config.kbsr ∧
    KeepsMemoryBut [Config.kbsr, Config.kbdr] s t ∧ KeepsRegsBut [] s t ∧ t.pc = s.pc ∧
    t.cond = s.cond ∧ KeepsRunControl s t ∧
    ((t.word Config.kbsr = 0x0000 ∧ t.word Config.kbdr = s.word Config.kbdr ∧
        t.ports.trace = s.ports.trace ++ [.pollInput false]) ∨
      ∃ c, t.word Config.kbsr = 0x8000 ∧ t.word Config.kbdr = zext8 c ∧
        t.ports.trace = s.ports.trace ++ [.pollInput true, .readChar c])

/-- The script decides a poll: a scripted answer is the answer as long as a character is to come, and
the character is the script's next one (`10_state.md` R37, R43, `70_reset_and_hazards.md` R265; the
script is the model's choice, log entries 8 and 9). -/
def Obligations.ScriptedInputArrivesInOrder : Prop :=
  ∀ (s : State) (answer : Bool) (later : List Bool) (c : Byte) (cs : List Byte),
    s.mem.wf → s.ports.polls = answer :: later → s.ports.keys = c :: cs →
    let t := s.afterRead Config.kbsr
    t.ports.polls = later ∧
    (answer = true → s.memRead Config.kbsr = 0x8000 ∧ t.word Config.kbdr = zext8 c ∧
      t.ports.keys = cs) ∧
    (answer = false → s.memRead Config.kbsr = 0x0000 ∧ t.ports.keys = c :: cs)

/-- `20_memory.md` R56: the read of KBSR has side effects and is not idempotent; each polls again, and
one that finds input consumes one character into KBDR; every other read has no side effect, and two of
them give the same Word. The clauses on `ports.keys` rest on the script, the model's choice (log entry
8). -/
def Obligations.OnlyTheKbsrReadHasSideEffects : Prop :=
  (∀ (s : State) (a : Word), a ≠ Config.kbsr →
    s.afterRead a = s ∧ (s.afterRead a).memRead a = s.memRead a) ∧
  (∀ s : State, ∃ answer es,
    (s.afterRead Config.kbsr).ports.trace = s.ports.trace ++ .pollInput answer :: es ∧
    (answer = true → ∃ c, es = [.readChar c] ∧
      (s.mem.wf → (s.afterRead Config.kbsr).word Config.kbdr = zext8 c) ∧
      (s.ports.keys = [] ∨ s.ports.keys = c :: (s.afterRead Config.kbsr).ports.keys)) ∧
    (answer = false → es = [] ∧ (s.afterRead Config.kbsr).ports.keys = s.ports.keys)) ∧
  ∃ s : State, s.memRead Config.kbsr ≠ (s.afterRead Config.kbsr).memRead Config.kbsr

/-- `20_memory.md` R57: a write sets the Word at every address, KBSR and KBDR included, with no other
effect, and calls no console. -/
def Obligations.MemWriteStoresEverywhere : Prop :=
  ∀ (s : State) (a v : Word),
    (s.mem.wf → (s.memWrite a v).word a = v) ∧ KeepsMemoryBut [a] s (s.memWrite a v) ∧
    { s.memWrite a v with mem := s.mem } = s

/-- Memory of the boot and of every store stays in canonical form, so that equal memories are equal
data: the model's own form (log entry 1), over `20_memory.md` R50 and R52. -/
def Obligations.CanonicalMemoryIsUnique : Prop :=
  ∀ m m' : Memory, m.wf → m'.wf → (∀ a, m.read a = m'.read a) → m = m'

/-- A store to the next instruction's address is what the next step runs (`20_memory.md` R66,
`70_reset_and_hazards.md` R270). `pc` at KBSR is left out: there the fetch polls first (R54). -/
def Obligations.StoreIsSeenByTheNextFetch : Prop :=
  ∀ (s : State) (sr : Reg), s.mem.wf → s.run = .running → s.pc ≠ Config.kbsr →
    ∃ t, exec (.st sr 0) s = .next t ∧ t.word s.pc = s.reg sr ∧
      (t.sampleStop.stopReq = false →
        step t = exec (decodeWord (s.reg sr)) t.sampleStop.afterFetch)

/-! ## TRAP -/

/-- GETC (`43_trap.md` R192): with a character to come it completes, whatever the character: R0 and the
flags from it, never NEGATIVE, R7, no output. -/
def Obligations.GetcReadsOneCharacter : Prop :=
  ∀ s : State, s.ports.charToCome = true → ∃ t c, exec .getc s = .next t ∧
    t.reg 0 = zext8 c ∧ IsCondOf (zext8 c) t.cond ∧ t.cond ≠ .negative ∧ t.run = s.run ∧
    ServiceFrame [7, 0] [.readChar c] s t ∧
    ∀ k ks, s.ports.keys = k :: ks → c = k ∧ t.ports.keys = ks

/-- OUT (`43_trap.md` R194): the low byte of R0 on the console; R7, and nothing else. -/
def Obligations.OutWritesTheLowByte : Prop :=
  ∀ s : State, ∃ t, exec .out s = .next t ∧ t.cond = s.cond ∧ t.run = s.run ∧
    ServiceFrame [7] [.writeChar (lowByte (s.reg 0))] s t

/-- PUTS (`43_trap.md` R196): the low byte of each Word before the first zero Word, for a string clear
of KBSR; for a string of any kind and any length, KBSR among its Words or not, what the rule's loop
comes to; and the stuck state when that loop has no end, and only then, since a loop that ends gives a
next state (`93_implementation_defined.md` U15). Intercept and wrap are decisions D11 and D12 (log entry
12); the fault as the form of never ending is log entry 11. -/
def Obligations.PutsWritesTheString : Prop :=
  (∀ (s : State) (ws : List Word), PutsString s (s.reg 0) ws → ∃ t, exec .puts s = .next t ∧
    t.cond = s.cond ∧ t.run = s.run ∧
    ServiceFrame [7] (ws.map fun w => .writeChar (lowByte w)) s t) ∧
  (∀ (s t : State) (n : Nat), s.mem.wf → PutsLoop n (s.reg 0) s.saveReturn t →
    exec .puts s = .next t) ∧
  ∀ s : State, s.mem.wf → (∀ n t, ¬ PutsLoop n (s.reg 0) s.saveReturn t) →
    exec .puts s = .fault .stringNeverEnds

/-- IN (`43_trap.md` R197): the prompt, then one character read, echoed and kept in R0, in this order.
For every `IN_PROMPT` (decision D10, log entry 15). -/
def Obligations.InPromptsReadsAndEchoes : Prop :=
  ∀ s : State, s.ports.charToCome = true → ∃ t c, exec .inTrap s = .next t ∧
    t.reg 0 = zext8 c ∧ IsCondOf (zext8 c) t.cond ∧ t.cond ≠ .negative ∧ t.run = s.run ∧
    ServiceFrame [7, 0] (Config.inPrompt.map .writeChar ++ [.readChar c, .writeChar c]) s t ∧
    ∀ k ks, s.ports.keys = k :: ks → c = k ∧ t.ports.keys = ks

/-- PUTSP (`43_trap.md` R199): the low byte, then the high byte unless it is zero, of each Word before
the first Word whose low byte is zero, for a string clear of KBSR; and, for a string of any kind, KBSR
among its Words or not, what the rule's loop comes to. Intercept and wrap are decisions D11 and D12
(log entry 12), the terminator is log entry 13. -/
def Obligations.PutspWritesThePackedString : Prop :=
  (∀ (s : State) (ws : List Word), PutspString s (s.reg 0) ws → ∃ t, exec .putsp s = .next t ∧
    t.cond = s.cond ∧ t.run = s.run ∧
    ServiceFrame [7] (ws.flatMap fun w =>
      .writeChar (lowByte w) :: if highByte w = 0 then [] else [.writeChar (highByte w)]) s t) ∧
  ∀ (s t : State) (n : Nat), s.mem.wf → PutspLoop n (s.reg 0) s.saveReturn t →
    exec .putsp s = .next t

/-- PUTSP completes from every state: its scan meets a terminator before it has read all of memory,
since KBSR reads as 0x8000 or 0x0000 (`43_trap.md` R199, `20_memory.md` R54; the scan's read path is
decision D11, log entry 12). -/
def Obligations.PutspAlwaysCompletes : Prop :=
  ∀ s : State, s.mem.wf → ∃ t, exec .putsp s = .next t ∧ t.pc = s.pc ∧ t.cond = s.cond ∧
    t.run = s.run ∧ t.reg 7 = s.pc ∧ KeepsRegsBut [7] s t ∧
    KeepsMemoryBut [Config.kbsr, Config.kbdr] s t

/-- HALT (`43_trap.md` R201): the notice on the diagnostic channel and `run` HALTED; R7 and `pc` hold
the return address. The channel is decision D9 (log entry 14). -/
def Obligations.HaltEndsTheRun : Prop :=
  ∀ s : State, ∃ t, exec .halt s = .next t ∧ t.run = .halted ∧ t.cond = s.cond ∧
    t.output = s.output ∧ ServiceFrame [7] [.diag .haltNotice] s t

/-- A code without a service (`43_trap.md` R203, `60_exceptions.md` R224): the event on the diagnostic
channel, R7, and the run goes on. Non-fatal is the source's design (log entry 25). -/
def Obligations.UnknownTrapIsLoggedAndSkipped : Prop :=
  ∀ (s : State) (code : BitVec 8), (Instr.trapUnknown code).wellFormed = true →
    ∃ t, exec (.trapUnknown code) s = .next t ∧ t.run = s.run ∧ t.cond = s.cond ∧
      t.output = s.output ∧ ServiceFrame [7] [.diag (.unknownTrap code)] s t

/-- TRAP (`43_trap.md` R190): each of the six codes runs its service, every other code none. -/
def Obligations.TrapRunsTheServiceOfItsCode : Prop :=
  ∀ s : State,
    exec (.trap 0x20) s = exec .getc s ∧ exec (.trap 0x21) s = exec .out s ∧
    exec (.trap 0x22) s = exec .puts s ∧ exec (.trap 0x23) s = exec .inTrap s ∧
    exec (.trap 0x24) s = exec .putsp s ∧ exec (.trap 0x25) s = exec .halt s ∧
    ∀ code : BitVec 8, code < 0x20 ∨ 0x25 < code → exec (.trap code) s = exec (.trapUnknown code) s

/-- TRAP completes with every code: GETC and IN when a character is to come, PUTS when a string stands
at R0, every other code always; it leaves the return address in R7, never moves `pc`, and writes no
register but R7 and, for GETC and IN, R0 (`43_trap.md` R190, R205, `10_state.md` R22). That PUTSP, code
0x24, always completes rests on its read path through the intercept, decisions D11 and D12 (log entry
12); a PUTS that meets KBSR is PutsWritesTheString's. -/
def Obligations.TrapCompletes : Prop :=
  ∀ (s : State) (code : BitVec 8), s.mem.wf →
    (code = 0x20 ∨ code = 0x23 → s.ports.charToCome = true) →
    (code = 0x22 → HasPutsString s (s.reg 0)) →
    ∃ t, exec (.trap code) s = .next t ∧ t.reg 7 = s.pc ∧ t.pc = s.pc ∧
      KeepsRegsBut (if code = 0x20 ∨ code = 0x23 then [7, 0] else [7]) s t ∧
      KeepsMemoryBut [Config.kbsr, Config.kbdr] s t

/-- At the end of the input GETC and IN, in either spelling, never return: the model's named stuck state
(`70_reset_and_hazards.md` R265, decision D16, log entry 10). -/
def Obligations.InputEndLeavesGetcAndInWaiting : Prop :=
  ∀ s : State, s.ports.charToCome = false →
    exec .getc s = .fault .inputNeverComes ∧ exec .inTrap s = .fault .inputNeverComes ∧
    exec (.trap 0x20) s = .fault .inputNeverComes ∧ exec (.trap 0x23) s = .fault .inputNeverComes

/-! ## The reserved opcodes -/

/-- IllegalOpcodeFault (`60_exceptions.md` R222, `10_state.md` R34): `run` FAULTED and the record, with
the address one below `pc`; no register, no Word, no flag and no port changes. The record is decision
D15 (log entry 22). -/
def Obligations.ReservedOpcodesFault : Prop :=
  ∀ (s : State) (rest : BitVec 12), ∃ t u,
    exec (.reserved8 rest) s = .next t ∧ exec (.reservedD rest) s = .next u ∧
    t.faultInfo = some ⟨.illegalOpcode, 0x8, (0x8#4 ++ rest : BitVec (4 + 12)), s.pc - 1⟩ ∧
    u.faultInfo = some ⟨.illegalOpcode, 0xD, (0xD#4 ++ rest : BitVec (4 + 12)), s.pc - 1⟩ ∧
    { t with run := s.run, faultInfo := s.faultInfo } = s ∧ t.run = .faulted ∧
    { u with run := s.run, faultInfo := s.faultInfo } = s ∧ u.run = .faulted

/-- The step that fetches a reserved opcode (`60_exceptions.md` R222): the record holds the fetched Word
and the instruction's own address, only the fetch's increment of `pc` stands, and no further step is
enabled. Decision D15 (log entries 18 and 22). -/
def Obligations.FetchedReservedOpcodeEndsTheRun : Prop :=
  ∀ s : State, s.run = .running → s.sampleStop.stopReq = false →
    (s.sampleStop.fetchWord.extractLsb' 12 4 = 0x8 ∨ s.sampleStop.fetchWord.extractLsb' 12 4 = 0xD) →
    ∃ t, step s = .next t ∧ t.run = .faulted ∧ t.pc = s.pc + 1 ∧ t.cond = s.cond ∧
      KeepsRegsBut [] s t ∧ KeepsMemoryBut [] s.sampleStop.afterFetch t ∧
      t.faultInfo = some ⟨.illegalOpcode, s.sampleStop.fetchWord.extractLsb' 12 4,
        s.sampleStop.fetchWord, s.pc⟩ ∧
      step t = .fault (.notRunning .faulted)

/-! ## Rules over all instructions -/

/-- `10_state.md` R28: the listed instructions set `cond` from their register, GETC and IN from R0, and
every other instruction leaves it. -/
def Obligations.CondIsWrittenByTheListedInstructions : Prop :=
  ∀ (i : Instr) (s t : State), exec i s = .next t →
    (∀ r, flagReg i = some r → IsCondOf (t.reg r) t.cond) ∧ (flagReg i = none → t.cond = s.cond)

/-- `10_state.md` R23: no instruction writes a general register that its row does not list. -/
def Obligations.RegistersAreWrittenByTheListedInstructions : Prop :=
  ∀ (i : Instr) (s t : State), exec i s = .next t → KeepsRegsBut (writtenRegs i) s t

/-- `20_memory.md` R59: an instruction changes no Word but the one it stores to and, by a poll, KBSR and
KBDR; the address stored to is the one its meaning computes. -/
def Obligations.MemoryChangesOnlyWhereStored : Prop :=
  ∀ (i : Instr) (s t : State), exec i s = .next t → ∀ a, storeAddress s i ≠ some a →
    a ≠ Config.kbsr → a ≠ Config.kbdr → t.word a = s.word a

/-- Only BR, JMP, JSR and JSRR move `pc` after the fetch (`10_state.md` R24, `43_trap.md` R205,
`41_control.md` R139). For the reserved opcodes, where `pc` stays as the fetch left it, this is the
spec's decision D15 (`60_exceptions.md` R222, log entry 22, unsafe). -/
def Obligations.OnlyControlTransferMovesPc : Prop :=
  ∀ (i : Instr) (s t : State), exec i s = .next t → movesPc i = false → t.pc = s.pc

/-- Only BR reads `cond`: every other instruction does the same from any condition code, up to the
condition code it leaves (`10_state.md` R29). -/
def Obligations.OnlyBrReadsCond : Prop :=
  ∀ (i : Instr) (s t : State) (c : Cond), (∀ nzp off9, i ≠ .br nzp off9) → exec i s = .next t →
    ∃ u, exec i (s.setCond c) = .next u ∧ u.setCond t.cond = t ∧
      (flagReg i ≠ none → u.cond = t.cond) ∧ (flagReg i = none → u.cond = c)

/-- `10_state.md` R38: only OUT, PUTS, IN and PUTSP write to the console. -/
def Obligations.OnlyTheServicesWriteTheConsole : Prop :=
  ∀ (i : Instr) (s t : State), exec i s = .next t → writesConsole i = false → t.output = s.output

/-- No instruction is refused, and none stops but GETC and IN at the end of the input and PUTS whose loop
never ends: no other synchronous exception exists (`60_exceptions.md` R226,
`93_implementation_defined.md` U15, U16; the two stuck states are log entries 10 and 11). That PUTSP
never stops rests on its read path through the intercept and the wrap (`43_trap.md` R199, decisions D11
and D12, log entry 12). -/
def Obligations.InstructionsStopOnlyByWaiting : Prop :=
  ∀ (i : Instr) (s : State), s.mem.wf →
    (∀ r, exec i s ≠ .refused r) ∧
    ∀ f, exec i s = .fault f →
      (f = .inputNeverComes ∧ s.ports.charToCome = false ∧ (i.resolve = .getc ∨ i.resolve = .inTrap)) ∨
      (f = .stringNeverEnds ∧ i.resolve = .puts ∧
        ∀ n t, ¬ PutsLoop n (s.reg 0) s.saveReturn t)

/-! ## The cycle -/

/-- A step in RUNNING with no stop request runs the fetched Word's instruction, at the state after the
fetch: `pc` one further, the registers and flags as before, and, anywhere but at KBSR, the Word the one
stored at `pc` and memory and ports untouched by the fetch (`30_encoding.md` R80). -/
def Obligations.StepRunsTheFetchedInstruction : Prop :=
  ∀ (s : State) (i : Instr), s.run = .running → s.sampleStop.stopReq = false →
    decodeWord s.sampleStop.fetchWord = i →
    let u := s.sampleStop.afterFetch
    step s = exec i u ∧ u.pc = s.pc + 1 ∧ KeepsRegsBut [] s u ∧ u.cond = s.cond ∧ u.run = s.run ∧
      (s.pc ≠ Config.kbsr → s.sampleStop.fetchWord = s.word s.pc ∧ KeepsMemoryBut [] s u ∧
        u.ports.trace = s.ports.trace)

/-- A Word placed for the fetch is the one the next step runs, from every state (`20_memory.md` R66;
the placing is the model's choice, log entry 21). -/
def Obligations.PlacedWordRunsNext : Prop :=
  ∀ (s : State) (w : Nat), s.mem.wf → w < 65536 →
    step (s.withFetchWord 16 w) =
      exec (decodeWord (BitVec.ofNat 16 w)) ((s.withFetchWord 16 w).setPc (s.fetchSlot + 1))

/-- A stop request set at the boundary, by the level the host drives there or, when it drives none, by
the one before, ends the run before the fetch: no Word is read, and nothing changes but `run` and the
sampled level. A level that is not set lets the instruction run, and sampling it changes nothing else
(`10_state.md` R40, decision D14; the list of levels is log entry 16). -/
def Obligations.StopRequestEndsTheRunBeforeTheFetch : Prop :=
  ∀ s : State, s.run = .running →
    ((∃ later, s.ports.stopLevels = true :: later) ∨ (s.ports.stopLevels = [] ∧ s.stopReq = true) →
      ∃ t, step s = .next t ∧ t.run = .stopped ∧ t.stopReq = true ∧ t.pc = s.pc ∧ t.cond = s.cond ∧
        KeepsRegsBut [] s t ∧ KeepsMemoryBut [] s t ∧ t.faultInfo = s.faultInfo ∧
        t.ports.trace = s.ports.trace) ∧
    ((∃ later, s.ports.stopLevels = false :: later) ∨ (s.ports.stopLevels = [] ∧ s.stopReq = false) →
      s.sampleStop =
        { s with stopReq := false, ports := { s.ports with stopLevels := s.ports.stopLevels.tail } } ∧
      step s = exec (decodeWord s.sampleStop.fetchWord) s.sampleStop.afterFetch)

/-- HALTED, FAULTED and STOPPED are terminal: no step is enabled (`10_state.md` R33, `30_encoding.md`
R80, decision D21, log entry 18). -/
def Obligations.TerminalStatesEnableNoStep : Prop :=
  ∀ s : State, s.run = .halted ∨ s.run = .faulted ∨ s.run = .stopped →
    step s = .fault (.notRunning s.run)

/-- The run leaves RUNNING only by HALT, by a reserved opcode or by a stop request (`30_encoding.md`
R81, `10_state.md` R33). -/
def Obligations.RunEndsOnlyThreeWays : Prop :=
  ∀ s t : State, s.run = .running → step s = .next t →
    (t.run = .running ∧ s.sampleStop.stopReq = false) ∨
    (t.run = .stopped ∧ s.sampleStop.stopReq = true) ∨
    (t.run = .halted ∧ decodeWord s.sampleStop.fetchWord = .halt) ∨
    (t.run = .faulted ∧ (s.sampleStop.fetchWord.extractLsb' 12 4 = 0x8 ∨
      s.sampleStop.fetchWord.extractLsb' 12 4 = 0xD))

/-- Every step keeps the invariant of the block, from every state that meets it, reachable or not. -/
def Obligations.StepKeepsInvariant : Prop :=
  ∀ s t : State, s.Inv → step s = .next t → t.Inv

/-- What the ports have carried is never taken back: a step adds transactions after the old ones, so the
console output and the diagnostic channel only grow (`10_state.md` R38, `70_reset_and_hazards.md` R270). -/
def Obligations.PortTraceOnlyGrows : Prop :=
  ∀ s t : State, step s = .next t → ∃ es, t.ports.trace = s.ports.trace ++ es

/-! ## Reset, boot and the host -/

/-- Reset (`70_reset_and_hazards.md` R250): every Word 0x0000, `stop_req` 0, no fault record, nothing on
the ports, `run` not yet RUNNING. R0 to R7, `pc` and `cond` hold the values of the spec's decisions D7,
D5, D6 (log entries 2, 3, 4), and `pc` is `RESET_PC` whatever it is. -/
def Obligations.ResetLeavesTheListedValues : Prop :=
  (∀ pc : Word, (State.resetAt pc).pc = pc ∧ (State.resetAt pc).cond = .zero ∧
    (∀ r, (State.resetAt pc).reg r = 0x0000) ∧ (∀ a, (State.resetAt pc).word a = 0x0000) ∧
    (State.resetAt pc).run = .booting ∧ (State.resetAt pc).faultInfo = none ∧
    (State.resetAt pc).stopReq = false ∧ (State.resetAt pc).output = [] ∧
    (State.resetAt pc).diag = []) ∧
  State.reset = State.resetAt 0x3000

/-- The reset state meets the invariant. -/
def Obligations.ResetMeetsInvariant : Prop := ∀ pc : Word, (State.resetAt pc).Inv

/-- Loading one image (`70_reset_and_hazards.md` R256, R257): its first pair of bytes is the origin, the
first byte of every pair the high one, and content Word k lands at origin + k when that is an address;
a Word past the top and an odd last byte are dropped, every other Word, every register and the images
after it are left. One image a boot step, which leaves the machine booting with that image taken off the
list, is the model's grain of boot (log entries 17 and 26); what is dropped is decision D13 (log entry
26). -/
def Obligations.BootLoadsBigEndianWords : Prop :=
  ∀ (s : State) (hi lo : Byte) (pairs : List (Byte × Byte)) (odd : List Byte)
    (later : List ImageFile),
    let origin := 256 * hi.toNat + lo.toNat
    s.run = .booting → s.mem.wf → odd.length ≤ 1 →
    s.ports.images = .bytes (hi :: lo :: ((pairs.flatMap fun p => [p.1, p.2]) ++ odd)) :: later →
    ∃ t, step s = .next t ∧ t.run = .booting ∧ t.ports.images = later ∧ t.mem.wf ∧
      (∀ k (h : k < pairs.length), origin + k < 65536 →
        (t.mem.read (origin + k)).toNat = 256 * (pairs[k]).1.toNat + (pairs[k]).2.toNat) ∧
      (∀ a, a < origin ∨ origin + pairs.length ≤ a → t.mem.read a = s.mem.read a) ∧
      KeepsRegsBut [] s t ∧ t.pc = s.pc ∧ t.cond = s.cond ∧ t.ports.trace = s.ports.trace

/-- Loading clips at the top and drops a trailing odd byte (`70_reset_and_hazards.md` R257): the Word for
0xFFFF is the last one stored, nothing below the origin is written, and one byte more on whole pairs
changes nothing. So a boot step on any image is the boot step on that image cut to whole pairs and at
the top: it never wraps. The odd byte and the last Word are decision D13; one image a boot step is the
model's grain of boot (log entries 17 and 26). -/
def Obligations.LoaderClipsAtTheTop : Prop :=
  (∀ (m : Memory) (a : Nat) (ws : List Word), m.wf → a < 65536 →
    (∀ b, b < a → (m.storeFrom a ws).read b = m.read b) ∧
    (∀ h : 65535 - a < ws.length, (m.storeFrom a ws).read 65535 = ws[65535 - a]) ∧
    m.storeFrom a ws = m.storeFrom a (ws.take (65536 - a)) ∧ (m.storeFrom a ws).wf) ∧
  (∀ (pairs : List (Byte × Byte)) (odd : Byte),
    wordsOfBytes ((pairs.flatMap fun p => [p.1, p.2]) ++ [odd]) =
      wordsOfBytes (pairs.flatMap fun p => [p.1, p.2])) ∧
  ∀ (s : State) (hi lo : Byte) (content : List Byte) (later : List ImageFile), s.run = .booting →
    let waiting := fun bytes : List Byte =>
      s.setPorts { s.ports with images := .bytes (hi :: lo :: bytes) :: later }
    let fits := min (65536 - (256 * hi.toNat + lo.toNat)) (content.length / 2)
    step (waiting content) = step (waiting (content.take (2 * fits))) ∧
    ∃ t, step (waiting content) = .next t ∧ t.run = .booting ∧ t.ports.images = later

/-- Boot's errors and its end (`70_reset_and_hazards.md` R258): no image is UsageError, an image that
cannot be read or has fewer than two bytes is LoadError, whatever was loaded before, and when no image
is left the run starts. Boot as steps is the model's choice (log entries 17 and 26). -/
def Obligations.BootErrorsAndStart : Prop :=
  powerOn [] = .fault .usageError ∧
  (∀ (first : ImageFile) (rest : List ImageFile), ∃ t, powerOn (first :: rest) = .next t ∧
    t.ports.images = first :: rest ∧ t.setPorts State.reset.ports = State.reset) ∧
  ∀ s : State, s.run = .booting →
    (∀ later, s.ports.images = .unreadable :: later → step s = .fault .loadError) ∧
    (∀ later content, s.ports.images = .bytes content :: later → content.length < 2 →
      step s = .fault .loadError) ∧
    (s.ports.images = [] → step s = .next (s.setRun .running))

/-- `70_reset_and_hazards.md` R255: images are loaded during boot and only then, no load polls the
console, and no instruction executes until boot completes. -/
def Obligations.BootExecutesNoInstruction : Prop :=
  (∀ s t : State, s.run = .booting → step s = .next t →
    KeepsRegsBut [] s t ∧ t.pc = s.pc ∧ t.cond = s.cond ∧ t.ports.trace = s.ports.trace ∧
    (t.run = .running → s.ports.images = [] ∧ t.mem = s.mem)) ∧
  ∀ s t : State, s.run ≠ .booting → step s = .next t → t.ports.images = s.ports.images

/-- The exit codes (`70_reset_and_hazards.md` R262): 0 for HALTED, 1 and 2 for boot's errors, the open
parameters for FAULTED and STOPPED (decisions D14, D15, log entry 19), the latter none of 0, 1, 2. -/
def Obligations.ExitCodesOfTheOutcomes : Prop :=
  (∀ s : State,
    (s.run = .halted → s.exitCode = some 0) ∧
    (s.run = .stopped → s.exitCode = some Config.stopExitCode) ∧
    (s.run = .faulted → s.exitCode = some Config.faultExitCode) ∧
    (s.run = .running → s.exitCode = none)) ∧
  Fault.loadError.exitCode = some 1 ∧ Fault.usageError.exitCode = some 2 ∧
  Config.stopExitCode ≠ 0 ∧ Config.stopExitCode ≠ 1 ∧ Config.stopExitCode ≠ 2
end

