-- ==== Sys2Proof/Laws/Bits.lean ====
section
/-! SUPPORT. Fields read back from placed fields, and the small facts about extensions, bytes and
condition bits. -/

namespace Sys2Proof

theorem field_or (a b : Word) (lo n : Nat) : field (a ||| b) lo n = field a lo n ||| field b lo n := by
  ext i hi
  simp [field]

/-- A field reads back where it was placed. -/
theorem field_place_same {n : Nat} (lo : Nat) (f : BitVec n) (h : lo + n ≤ 16) :
    field (place lo f) lo n = f := by
  apply BitVec.eq_of_getLsbD_eq
  intro i hi
  simp only [field, place, BitVec.getLsbD_extractLsb', BitVec.getLsbD_shiftLeft,
    BitVec.getLsbD_setWidth, hi, decide_true, Bool.true_and]
  have h1 : lo + i < 16 := by omega
  have h2 : i < 16 := by omega
  simp [h1, h2]

/-- A field placed elsewhere reads as zero. -/
theorem field_place_apart {m : Nat} (at' lo n : Nat) (f : BitVec m)
    (h : at' + m ≤ lo ∨ lo + n ≤ at') : field (place at' f) lo n = 0 := by
  apply BitVec.eq_of_getLsbD_eq
  intro i hi
  simp only [field, place, BitVec.getLsbD_extractLsb', BitVec.getLsbD_shiftLeft,
    BitVec.getLsbD_setWidth]
  by_cases hlo : lo + i < at'
  · simp [hlo]
  · have hge : f.getLsbD (lo + i - at') = false := BitVec.getLsbD_of_ge f _ (by omega)
    simp [hge]

@[simp] theorem regOfBits_regBits (r : Reg) : regOfBits (regBits r) = r := rfl

@[simp] theorem regBits_regOfBits (b : BitVec 3) : regBits (regOfBits b) = b := rfl

@[simp] theorem Opcode.ofBits_bits (op : Opcode) : Opcode.ofBits op.bits = op := by
  cases op <;> rfl

theorem Opcode.bits_ofBits (b : BitVec 4) : (Opcode.ofBits b).bits = b := by
  revert b; decide

@[simp] theorem field_zero_word (lo n : Nat) : field 0 lo n = 0 := by
  ext i hi
  simp [field]

/-- The opcode field of a Word put together from an opcode and a body of lower bits. -/
theorem opcodeField_withOpcode (op : Opcode) (body : Word) (h : field body 12 4 = 0) :
    opcodeField (withOpcode op body) = op.bits := by
  simp [opcodeField, withOpcode, field_or, field_place_same, h]

/-- A field below the opcode is the body's. -/
theorem field_withOpcode (op : Opcode) (body : Word) (lo n : Nat) (h : lo + n ≤ 12) :
    field (withOpcode op body) lo n = field body lo n := by
  simp only [withOpcode, field_or, field_place_apart 12 lo n op.bits (.inr h)]
  simp

/-- The two bytes of a Word make the Word again, in image order. -/
theorem wordOfBytes_bytesOfWord (w : Word) : wordOfBytes (field w 8 8) (field w 0 8) = w := by
  apply BitVec.eq_of_getLsbD_eq
  intro i hi
  simp only [wordOfBytes]
  rw [BitVec.getLsbD_append]
  split
  · simp [field, *]
  · simp only [field, BitVec.getLsbD_extractLsb']
    have h : i - 8 < 8 := by omega
    simp only [h, decide_true, Bool.true_and]
    congr 1
    omega

namespace Machine

@[simp] theorem lowByte_zext8 (c : Byte) : lowByte (zext8 c) = c := by
  ext i hi
  have h16 : i < 16 := by omega
  simp [lowByte, zext8, h16, BitVec.getLsbD_eq_getElem hi]

/-- Every condition meets the full mask (`41_control.md` R140). -/
@[simp] theorem condMeets_all (c : Cond) : condMeets 0b111 c = true := by cases c <;> decide

/-- No condition meets the empty mask (`30_encoding.md` R90). -/
@[simp] theorem condMeets_none (c : Cond) : condMeets 0b000 c = false := by cases c <;> decide

/-- A character's Word is never negative (`43_trap.md` R192). -/
theorem classify_zext8 (c : Byte) : classify (zext8 c) = if c = 0 then .zero else .positive := by
  revert c; decide

@[simp] theorem classify_zero : classify 0 = .zero := rfl

end Machine

end Sys2Proof
end

