-- ==== Sys2Proof/Laws/Memory.lean ====
section
/-! SUPPORT. The laws of memory: read after write, every other address alone, and the canonical form
kept by every memory operation. -/

namespace Sys2Proof.Machine

@[simp] theorem Memory.read_nil (a : Nat) : Memory.read [] a = Memory.unlisted := rfl

/-- An address below every listed one is unlisted. -/
theorem Memory.read_of_lt (m : Memory) (a : Nat) (h : ∀ c ∈ m, a < c.1) :
    m.read a = Memory.unlisted := by
  induction m with
  | nil => rfl
  | cons c rest ih =>
    obtain ⟨k, w⟩ := c
    have hk : a < k := h (k, w) (by simp)
    simp only [Memory.read]
    rw [if_neg (by omega)]
    exact ih fun c hc => h c (by simp [hc])

theorem Memory.wf_tail {c : Nat × Word} {m : Memory} (h : Memory.wf (c :: m)) : m.wf :=
  ⟨(List.pairwise_cons.mp h.1).2, fun d hd => h.2 d (by simp [hd])⟩

/-- A listed address reads as it is listed. -/
theorem Memory.read_of_mem {m : Memory} (h : m.wf) {a : Nat} {v : Word} (hm : (a, v) ∈ m) :
    m.read a = v := by
  induction m with
  | nil => cases hm
  | cons c rest ih =>
    rcases List.mem_cons.mp hm with rfl | hr
    · exact if_pos rfl
    · have hlt : c.1 < a := (List.pairwise_cons.mp h.1).1 _ hr
      exact (if_neg (Nat.ne_of_lt hlt)).trans (ih (Memory.wf_tail h) hr)

/-- A write leaves every other address alone, in any list. -/
theorem Memory.read_write_other (m : Memory) {a b : Nat} (v : Word) (h : b ≠ a) :
    (m.write a v).read b = m.read b := by
  induction m with
  | nil =>
    simp only [Memory.write]
    split
    · rfl
    · simp [Memory.read, h.symm]
  | cons c rest ih =>
    obtain ⟨k, w⟩ := c
    simp only [Memory.write]
    split
    · simp only [Memory.read, ih]
    · split
      · next hk =>
        subst hk
        split <;> simp [Memory.read, h.symm]
      · split <;> simp [Memory.read, h.symm]

/-- A read after a write to the same address gives the value written (`20_memory.md` R52). -/
theorem Memory.read_write_same (m : Memory) (a : Nat) (v : Word) (h : m.wf) :
    (m.write a v).read a = v := by
  induction m with
  | nil =>
    simp only [Memory.write]
    split
    · next hv => simp [Memory.read, hv]
    · simp [Memory.read]
  | cons c rest ih =>
    obtain ⟨k, w⟩ := c
    have hp := List.pairwise_cons.mp h.1
    simp only [Memory.write]
    split
    · next hk => simp only [Memory.read, if_neg (Nat.ne_of_lt hk), ih (Memory.wf_tail h)]
    · split
      · next hk =>
        subst hk
        split
        · next hv => rw [hv]; exact Memory.read_of_lt rest k hp.1
        · simp [Memory.read]
      · split
        · next hlt hne hv =>
          rw [hv]
          refine Memory.read_of_lt _ a fun c hc => ?_
          rcases List.mem_cons.mp hc with rfl | hc
          · simp only; omega
          · have := hp.1 c hc
            simp only at this
            omega
        · simp [Memory.read]

/-- What a read gives after any write. -/
theorem Memory.read_write (m : Memory) (a b : Nat) (v : Word) (h : m.wf) :
    (m.write a v).read b = if b = a then v else m.read b := by
  split
  · next hb => rw [hb, Memory.read_write_same m a v h]
  · next hb => exact Memory.read_write_other m v hb

/-- The entries after a write are old ones or the written one. -/
theorem Memory.mem_write (m : Memory) (a : Nat) (v : Word) (c : Nat × Word) (hc : c ∈ m.write a v) :
    c ∈ m ∨ (c = (a, v) ∧ v ≠ Memory.unlisted) := by
  induction m with
  | nil =>
    simp only [Memory.write] at hc
    split at hc <;> simp_all
  | cons d rest ih =>
    obtain ⟨k, w⟩ := d
    simp only [Memory.write] at hc
    split at hc
    · rcases List.mem_cons.mp hc with rfl | hc
      · simp
      · rcases ih hc with h | h
        · exact .inl (by simp [h])
        · exact .inr h
    · split at hc
      · split at hc
        · exact .inl (by simp [hc])
        · next hv =>
          rcases List.mem_cons.mp hc with rfl | hc
          · exact .inr ⟨rfl, hv⟩
          · exact .inl (by simp [hc])
      · split at hc
        · exact .inl hc
        · next hv =>
          rcases List.mem_cons.mp hc with rfl | hc
          · exact .inr ⟨rfl, hv⟩
          · exact .inl hc

/-- A write inside the address space keeps the canonical form. -/
theorem Memory.write_wf (m : Memory) (a : Nat) (v : Word) (h : m.wf) (ha : a < 65536) :
    (m.write a v).wf := by
  refine ⟨?_, fun c hc => ?_⟩
  · induction m with
    | nil =>
      simp only [Memory.write]
      split <;> simp
    | cons d rest ih =>
      obtain ⟨k, w⟩ := d
      have hp := List.pairwise_cons.mp h.1
      simp only [Memory.write]
      split
      · next hk =>
        refine List.pairwise_cons.mpr ⟨fun c hc => ?_, ih (Memory.wf_tail h)⟩
        rcases Memory.mem_write rest a v c hc with hc | ⟨rfl, -⟩
        · exact hp.1 c hc
        · exact hk
      · split
        · next hk =>
          subst hk
          split
          · exact hp.2
          · exact List.pairwise_cons.mpr ⟨hp.1, hp.2⟩
        · split
          · exact h.1
          · refine List.pairwise_cons.mpr ⟨fun c hc => ?_, h.1⟩
            rcases List.mem_cons.mp hc with rfl | hc
            · simp only; omega
            · have := hp.1 c hc
              simp only at this ⊢
              omega
  · rcases Memory.mem_write m a v c hc with hc | ⟨rfl, hv⟩
    · exact h.2 c hc
    · exact ⟨ha, hv⟩

/-- Loading Words keeps the canonical form (`70_reset_and_hazards.md` R257: nothing past 0xFFFF). -/
theorem Memory.storeFrom_wf (ws : List Word) (m : Memory) (a : Nat) (h : m.wf) :
    (m.storeFrom a ws).wf := by
  induction ws generalizing m a with
  | nil => exact h
  | cons w ws ih =>
    simp only [Memory.storeFrom]
    split
    · next ha => exact ih _ _ (Memory.write_wf m a w h ha)
    · exact h

/-- Loading Words from an address leaves every lower address alone. -/
theorem Memory.storeFrom_below (ws : List Word) (m : Memory) (a b : Nat) (h : b < a) :
    (m.storeFrom a ws).read b = m.read b := by
  induction ws generalizing m a with
  | nil => rfl
  | cons w ws ih =>
    simp only [Memory.storeFrom]
    split
    · rw [ih _ _ (by omega), Memory.read_write_other m w (by omega)]
    · rfl

/-! ## Words of the state -/

/-- A load after a store to the same address returns the stored value (`20_memory.md` R64). -/
theorem State.word_memWrite_same (s : State) (a v : Word) (h : s.mem.wf) :
    (s.memWrite a v).word a = v := Memory.read_write_same s.mem a.toNat v h

/-- A store leaves every other Word alone (`20_memory.md` R57). -/
theorem State.word_memWrite_other (s : State) {a b : Word} (v : Word) (h : b ≠ a) :
    (s.memWrite a v).word b = s.word b :=
  Memory.read_write_other s.mem v fun e => h (BitVec.eq_of_toNat_eq e)

/-- A store keeps the canonical form: every Word address is below 65536 (`20_memory.md` R50). -/
theorem State.memWrite_wf (s : State) (a v : Word) (h : s.mem.wf) : (s.memWrite a v).mem.wf :=
  Memory.write_wf s.mem a.toNat v h a.isLt

end Sys2Proof.Machine
end

