-- ==== Sys2Proof/Laws/State.lean ====
section
/-! SUPPORT. One lemma per field per update of the state, true by `rfl`, so that no later proof unfolds a
record update; then the register and memory accessors against the updates. -/

namespace Sys2Proof.Machine

/-! ## `setReg` -/

@[simp] theorem State.setReg_regs (s : State) (r : Reg) (v : Word) : (s.setReg r v).regs = s.regs.set r v := rfl

@[simp] theorem State.setReg_pc (s : State) (r : Reg) (v : Word) : (s.setReg r v).pc = s.pc := rfl

@[simp] theorem State.setReg_cond (s : State) (r : Reg) (v : Word) : (s.setReg r v).cond = s.cond := rfl

@[simp] theorem State.setReg_mem (s : State) (r : Reg) (v : Word) : (s.setReg r v).mem = s.mem := rfl

@[simp] theorem State.setReg_run (s : State) (r : Reg) (v : Word) : (s.setReg r v).run = s.run := rfl

@[simp] theorem State.setReg_faultInfo (s : State) (r : Reg) (v : Word) : (s.setReg r v).faultInfo = s.faultInfo := rfl

@[simp] theorem State.setReg_stopReq (s : State) (r : Reg) (v : Word) : (s.setReg r v).stopReq = s.stopReq := rfl

@[simp] theorem State.setReg_ports (s : State) (r : Reg) (v : Word) : (s.setReg r v).ports = s.ports := rfl

@[simp] theorem State.setReg_word (s : State) (r : Reg) (v : Word) (x : Word) : (s.setReg r v).word x = s.word x := rfl

/-! ## `setPc` -/

@[simp] theorem State.setPc_regs (s : State) (v : Word) : (s.setPc v).regs = s.regs := rfl

@[simp] theorem State.setPc_pc (s : State) (v : Word) : (s.setPc v).pc = v := rfl

@[simp] theorem State.setPc_cond (s : State) (v : Word) : (s.setPc v).cond = s.cond := rfl

@[simp] theorem State.setPc_mem (s : State) (v : Word) : (s.setPc v).mem = s.mem := rfl

@[simp] theorem State.setPc_run (s : State) (v : Word) : (s.setPc v).run = s.run := rfl

@[simp] theorem State.setPc_faultInfo (s : State) (v : Word) : (s.setPc v).faultInfo = s.faultInfo := rfl

@[simp] theorem State.setPc_stopReq (s : State) (v : Word) : (s.setPc v).stopReq = s.stopReq := rfl

@[simp] theorem State.setPc_ports (s : State) (v : Word) : (s.setPc v).ports = s.ports := rfl

@[simp] theorem State.setPc_reg (s : State) (v : Word) (q : Reg) : (s.setPc v).reg q = s.reg q := rfl

@[simp] theorem State.setPc_word (s : State) (v : Word) (x : Word) : (s.setPc v).word x = s.word x := rfl

/-! ## `setCond` -/

@[simp] theorem State.setCond_regs (s : State) (c : Cond) : (s.setCond c).regs = s.regs := rfl

@[simp] theorem State.setCond_pc (s : State) (c : Cond) : (s.setCond c).pc = s.pc := rfl

@[simp] theorem State.setCond_cond (s : State) (c : Cond) : (s.setCond c).cond = c := rfl

@[simp] theorem State.setCond_mem (s : State) (c : Cond) : (s.setCond c).mem = s.mem := rfl

@[simp] theorem State.setCond_run (s : State) (c : Cond) : (s.setCond c).run = s.run := rfl

@[simp] theorem State.setCond_faultInfo (s : State) (c : Cond) : (s.setCond c).faultInfo = s.faultInfo := rfl

@[simp] theorem State.setCond_stopReq (s : State) (c : Cond) : (s.setCond c).stopReq = s.stopReq := rfl

@[simp] theorem State.setCond_ports (s : State) (c : Cond) : (s.setCond c).ports = s.ports := rfl

@[simp] theorem State.setCond_reg (s : State) (c : Cond) (q : Reg) : (s.setCond c).reg q = s.reg q := rfl

@[simp] theorem State.setCond_word (s : State) (c : Cond) (x : Word) : (s.setCond c).word x = s.word x := rfl

/-! ## `setRun` -/

@[simp] theorem State.setRun_regs (s : State) (r : RunState) : (s.setRun r).regs = s.regs := rfl

@[simp] theorem State.setRun_pc (s : State) (r : RunState) : (s.setRun r).pc = s.pc := rfl

@[simp] theorem State.setRun_cond (s : State) (r : RunState) : (s.setRun r).cond = s.cond := rfl

@[simp] theorem State.setRun_mem (s : State) (r : RunState) : (s.setRun r).mem = s.mem := rfl

@[simp] theorem State.setRun_run (s : State) (r : RunState) : (s.setRun r).run = r := rfl

@[simp] theorem State.setRun_faultInfo (s : State) (r : RunState) : (s.setRun r).faultInfo = s.faultInfo := rfl

@[simp] theorem State.setRun_stopReq (s : State) (r : RunState) : (s.setRun r).stopReq = s.stopReq := rfl

@[simp] theorem State.setRun_ports (s : State) (r : RunState) : (s.setRun r).ports = s.ports := rfl

@[simp] theorem State.setRun_reg (s : State) (r : RunState) (q : Reg) : (s.setRun r).reg q = s.reg q := rfl

@[simp] theorem State.setRun_word (s : State) (r : RunState) (x : Word) : (s.setRun r).word x = s.word x := rfl

/-! ## `setPorts` -/

@[simp] theorem State.setPorts_regs (s : State) (p : Ports) : (s.setPorts p).regs = s.regs := rfl

@[simp] theorem State.setPorts_pc (s : State) (p : Ports) : (s.setPorts p).pc = s.pc := rfl

@[simp] theorem State.setPorts_cond (s : State) (p : Ports) : (s.setPorts p).cond = s.cond := rfl

@[simp] theorem State.setPorts_mem (s : State) (p : Ports) : (s.setPorts p).mem = s.mem := rfl

@[simp] theorem State.setPorts_run (s : State) (p : Ports) : (s.setPorts p).run = s.run := rfl

@[simp] theorem State.setPorts_faultInfo (s : State) (p : Ports) : (s.setPorts p).faultInfo = s.faultInfo := rfl

@[simp] theorem State.setPorts_stopReq (s : State) (p : Ports) : (s.setPorts p).stopReq = s.stopReq := rfl

@[simp] theorem State.setPorts_ports (s : State) (p : Ports) : (s.setPorts p).ports = p := rfl

@[simp] theorem State.setPorts_reg (s : State) (p : Ports) (q : Reg) : (s.setPorts p).reg q = s.reg q := rfl

@[simp] theorem State.setPorts_word (s : State) (p : Ports) (x : Word) : (s.setPorts p).word x = s.word x := rfl

/-! ## `memWrite` -/

@[simp] theorem State.memWrite_regs (s : State) (a v : Word) : (s.memWrite a v).regs = s.regs := rfl

@[simp] theorem State.memWrite_pc (s : State) (a v : Word) : (s.memWrite a v).pc = s.pc := rfl

@[simp] theorem State.memWrite_cond (s : State) (a v : Word) : (s.memWrite a v).cond = s.cond := rfl

@[simp] theorem State.memWrite_mem (s : State) (a v : Word) : (s.memWrite a v).mem = s.mem.write a.toNat v := rfl

@[simp] theorem State.memWrite_run (s : State) (a v : Word) : (s.memWrite a v).run = s.run := rfl

@[simp] theorem State.memWrite_faultInfo (s : State) (a v : Word) : (s.memWrite a v).faultInfo = s.faultInfo := rfl

@[simp] theorem State.memWrite_stopReq (s : State) (a v : Word) : (s.memWrite a v).stopReq = s.stopReq := rfl

@[simp] theorem State.memWrite_ports (s : State) (a v : Word) : (s.memWrite a v).ports = s.ports := rfl

@[simp] theorem State.memWrite_reg (s : State) (a v : Word) (q : Reg) : (s.memWrite a v).reg q = s.reg q := rfl

/-! ## Registers -/

/-- A register after a write: the value written, or what it held (`10_state.md` R20). -/
theorem State.setReg_reg (s : State) (r q : Reg) (v : Word) :
    (s.setReg r v).reg q = if q = r then v else s.reg q := by
  unfold State.reg State.setReg
  simp only [Vector.get_eq_getElem, Vector.getElem_set, Fin.val_inj, eq_comm]

@[simp] theorem State.setReg_reg_same (s : State) (r : Reg) (v : Word) :
    (s.setReg r v).reg r = v := by simp [State.setReg_reg]

@[simp] theorem State.setReg_reg_other (s : State) {r q : Reg} (v : Word) (h : q ≠ r) :
    (s.setReg r v).reg q = s.reg q := by simp [State.setReg_reg, h]

/-! ## `illegalOpcode`: the fault record and the run state, nothing else -/

@[simp] theorem State.illegalOpcode_regs (s : State) (ir : Word) :
    (s.illegalOpcode ir).regs = s.regs := rfl

@[simp] theorem State.illegalOpcode_pc (s : State) (ir : Word) :
    (s.illegalOpcode ir).pc = s.pc := rfl

@[simp] theorem State.illegalOpcode_cond (s : State) (ir : Word) :
    (s.illegalOpcode ir).cond = s.cond := rfl

@[simp] theorem State.illegalOpcode_mem (s : State) (ir : Word) :
    (s.illegalOpcode ir).mem = s.mem := rfl

@[simp] theorem State.illegalOpcode_run (s : State) (ir : Word) :
    (s.illegalOpcode ir).run = .faulted := rfl

@[simp] theorem State.illegalOpcode_faultInfo (s : State) (ir : Word) :
    (s.illegalOpcode ir).faultInfo = some
      { kind := .illegalOpcode, opcode := ir.extractLsb' 12 4, instr := ir, addr := s.pc - 1 } := rfl

@[simp] theorem State.illegalOpcode_stopReq (s : State) (ir : Word) :
    (s.illegalOpcode ir).stopReq = s.stopReq := rfl

@[simp] theorem State.illegalOpcode_ports (s : State) (ir : Word) :
    (s.illegalOpcode ir).ports = s.ports := rfl

@[simp] theorem State.illegalOpcode_reg (s : State) (ir : Word) (q : Reg) :
    (s.illegalOpcode ir).reg q = s.reg q := rfl

@[simp] theorem State.illegalOpcode_word (s : State) (ir x : Word) :
    (s.illegalOpcode ir).word x = s.word x := rfl

/-! ## `sampleStop`: the sampled level and the host's list, nothing else -/

@[simp] theorem State.sampleStop_regs (s : State) : s.sampleStop.regs = s.regs := by
  unfold State.sampleStop; split <;> rfl

@[simp] theorem State.sampleStop_pc (s : State) : s.sampleStop.pc = s.pc := by
  unfold State.sampleStop; split <;> rfl

@[simp] theorem State.sampleStop_cond (s : State) : s.sampleStop.cond = s.cond := by
  unfold State.sampleStop; split <;> rfl

@[simp] theorem State.sampleStop_mem (s : State) : s.sampleStop.mem = s.mem := by
  unfold State.sampleStop; split <;> rfl

@[simp] theorem State.sampleStop_run (s : State) : s.sampleStop.run = s.run := by
  unfold State.sampleStop; split <;> rfl

@[simp] theorem State.sampleStop_faultInfo (s : State) : s.sampleStop.faultInfo = s.faultInfo := by
  unfold State.sampleStop; split <;> rfl

@[simp] theorem State.sampleStop_reg (s : State) (q : Reg) : s.sampleStop.reg q = s.reg q := by
  simp [State.reg]

@[simp] theorem State.sampleStop_word (s : State) (x : Word) : s.sampleStop.word x = s.word x := by
  simp [State.word]

@[simp] theorem State.sampleStop_trace (s : State) : s.sampleStop.ports.trace = s.ports.trace := by
  unfold State.sampleStop; split <;> rfl

end Sys2Proof.Machine
end

