-- ==== Sys2Proof/Laws/Boot.lean ====
section
/-! SUPPORT. What a boot step can do. -/

namespace Sys2Proof.Machine

/-- Loading an image touches memory only. -/
theorem State.loadImage_cases {s t : State} {content : List Byte} (h : s.loadImage content = some t) :
    ∃ origin ws, wordsOfBytes content = origin :: ws ∧
      t = { s with mem := s.mem.storeFrom origin.toNat ws } := by
  unfold State.loadImage at h
  split at h
  · cases h
  · next origin ws hw => exact ⟨origin, ws, hw, (Option.some.inj h).symm⟩

/-- Everything a boot step that goes on can do: start the run, or load the next image
(`70_reset_and_hazards.md` R258). -/
theorem bootStep_cases {s t : State} (h : bootStep s = .next t) :
    (s.ports.images = [] ∧ t = s.setRun .running) ∨
    (∃ content rest origin ws, s.ports.images = .bytes content :: rest ∧
      wordsOfBytes content = origin :: ws ∧
      t = { s with mem := s.mem.storeFrom origin.toNat ws, ports := { s.ports with images := rest } }) := by
  unfold bootStep at h
  split at h
  · next hi => exact .inl ⟨hi, (Host.Outcome.next.inj h).symm⟩
  · cases h
  · next content rest hi =>
    split at h
    · next u hu =>
      obtain ⟨origin, ws, hw, rfl⟩ := State.loadImage_cases hu
      exact .inr ⟨content, rest, origin, ws, hi, hw, (Host.Outcome.next.inj h).symm⟩
    · cases h

end Sys2Proof.Machine
end

