-- ==== Sys2Proof/Laws/Ops.lean ====
section
/-! SUPPORT. What each shared operation can do, said once: the ports, MemRead, the fetch, SetCC, trap
entry and the fault. Provers cite these and unfold no operation. -/

namespace Sys2Proof.Machine

theorem kbsr_ne_kbdr : Config.kbsr ≠ Config.kbdr := by decide

/-! ## Ports -/

@[simp] theorem Ports.polled_trace (p : Ports) :
    p.polled.trace = p.trace ++ [.pollInput p.pollAnswer] := rfl

@[simp] theorem Ports.charRead_trace (p : Ports) :
    p.charRead.trace = p.trace ++ [.readChar p.nextChar] := rfl

@[simp] theorem Ports.charsWritten_trace (p : Ports) (bs : List Byte) :
    (p.charsWritten bs).trace = p.trace ++ bs.map .writeChar := rfl

@[simp] theorem Ports.diagEmitted_trace (p : Ports) (e : DiagEvent) :
    (p.diagEmitted e).trace = p.trace ++ [.diag e] := rfl

theorem Ports.polled_polls (p : Ports) : p.polled.polls = p.polls.tail := rfl

@[simp] theorem Ports.charRead_polls (p : Ports) : p.charRead.polls = p.polls := rfl

@[simp] theorem Ports.charsWritten_polls (p : Ports) (bs : List Byte) :
    (p.charsWritten bs).polls = p.polls := rfl

/-- Writing characters one after the other is writing them all (`43_trap.md` R197's loop). -/
theorem Ports.charsWritten_append (p : Ports) (bs cs : List Byte) :
    (p.charsWritten bs).charsWritten cs = p.charsWritten (bs ++ cs) := by
  simp [Ports.charsWritten]

/-- Writing does not change whether a character is to come, nor which. -/
@[simp] theorem Ports.charsWritten_charToCome (p : Ports) (bs : List Byte) :
    (p.charsWritten bs).charToCome = p.charToCome := rfl

@[simp] theorem Ports.charsWritten_nextChar (p : Ports) (bs : List Byte) :
    (p.charsWritten bs).nextChar = p.nextChar := rfl

/-- A poll does not change whether a character is to come: it consumes none (`20_memory.md` R54). -/
@[simp] theorem Ports.polled_charToCome (p : Ports) : p.polled.charToCome = p.charToCome := rfl

/-- A true answer promises a character (`70_reset_and_hazards.md` R265). -/
theorem Ports.charToCome_of_pollAnswer (p : Ports) (h : p.pollAnswer = true) :
    p.charToCome = true := by
  simp only [Ports.pollAnswer, Bool.and_eq_true] at h
  exact h.1

@[simp] theorem State.writeChars_ports (s : State) (bs : List Byte) :
    (s.writeChars bs).ports = s.ports.charsWritten bs := rfl

@[simp] theorem State.writeChars_reg (s : State) (bs : List Byte) (q : Reg) :
    (s.writeChars bs).reg q = s.reg q := rfl

@[simp] theorem State.writeChars_word (s : State) (bs : List Byte) (x : Word) :
    (s.writeChars bs).word x = s.word x := rfl

theorem State.writeChars_eq (s : State) (bs : List Byte) :
    s.writeChars bs = s.setPorts (s.ports.charsWritten bs) := rfl

theorem State.writeChar_eq (s : State) (b : Byte) :
    s.writeChar b = s.setPorts (s.ports.charsWritten [b]) := rfl

theorem State.emitDiag_eq (s : State) (e : DiagEvent) :
    s.emitDiag e = s.setPorts (s.ports.diagEmitted e) := rfl

/-- `ReadChar` returns exactly when a character is to come, and touches the ports only. -/
theorem State.readChar_eq (s : State) :
    s.readChar =
      if s.ports.charToCome then some (s.ports.nextChar, s.setPorts s.ports.charRead) else none := rfl

/-! ## MemRead -/

/-- A read anywhere but at KBSR has no effect (`20_memory.md` R56). -/
theorem State.afterRead_of_ne (s : State) {a : Word} (h : a ≠ Config.kbsr) : s.afterRead a = s := by
  simp [State.afterRead, h]

/-- A read anywhere but at KBSR returns the stored Word (`20_memory.md` R52, R55). -/
theorem State.memRead_of_ne (s : State) {a : Word} (h : a ≠ Config.kbsr) : s.memRead a = s.word a := by
  simp [State.memRead, State.afterRead_of_ne s h]

@[simp] theorem State.afterRead_kbsr (s : State) : s.afterRead Config.kbsr = s.pollKeyboard := by
  simp [State.afterRead]

/-- Everything a KBSR poll can do: with no input, the status 0x0000 and one `PollInput`; with input,
the status 0x8000, the next character in KBDR, and one `ReadChar` after the `PollInput`
(`20_memory.md` R54). -/
theorem State.pollKeyboard_cases (s : State) :
    (s.ports.pollAnswer = false ∧
      s.pollKeyboard = (s.setPorts s.ports.polled).memWrite Config.kbsr 0x0000) ∨
    (s.ports.pollAnswer = true ∧
      s.pollKeyboard =
        ((s.setPorts s.ports.polled.charRead).memWrite Config.kbsr 0x8000).memWrite Config.kbdr
          (zext8 s.ports.polled.nextChar)) := by
  cases h : s.ports.pollAnswer with
  | false => exact .inl ⟨rfl, by simp [State.pollKeyboard, h]⟩
  | true => exact .inr ⟨rfl, by simp only [State.pollKeyboard, h]; rfl⟩

/-- What a poll leaves alone: everything but memory and the ports. -/
theorem State.pollKeyboard_frame (s : State) :
    s.pollKeyboard.regs = s.regs ∧ s.pollKeyboard.pc = s.pc ∧ s.pollKeyboard.cond = s.cond ∧
      s.pollKeyboard.run = s.run ∧ s.pollKeyboard.faultInfo = s.faultInfo ∧
      s.pollKeyboard.stopReq = s.stopReq := by
  rcases s.pollKeyboard_cases with ⟨-, h⟩ | ⟨-, h⟩ <;> rw [h] <;> exact ⟨rfl, rfl, rfl, rfl, rfl, rfl⟩

@[simp] theorem State.pollKeyboard_regs (s : State) : s.pollKeyboard.regs = s.regs :=
  s.pollKeyboard_frame.1

@[simp] theorem State.pollKeyboard_pc (s : State) : s.pollKeyboard.pc = s.pc :=
  s.pollKeyboard_frame.2.1

@[simp] theorem State.pollKeyboard_cond (s : State) : s.pollKeyboard.cond = s.cond :=
  s.pollKeyboard_frame.2.2.1

@[simp] theorem State.pollKeyboard_run (s : State) : s.pollKeyboard.run = s.run :=
  s.pollKeyboard_frame.2.2.2.1

@[simp] theorem State.pollKeyboard_faultInfo (s : State) : s.pollKeyboard.faultInfo = s.faultInfo :=
  s.pollKeyboard_frame.2.2.2.2.1

@[simp] theorem State.pollKeyboard_stopReq (s : State) : s.pollKeyboard.stopReq = s.stopReq :=
  s.pollKeyboard_frame.2.2.2.2.2

@[simp] theorem State.pollKeyboard_reg (s : State) (q : Reg) : s.pollKeyboard.reg q = s.reg q := by
  simp [State.reg]

/-- What any read leaves alone: everything but memory and the ports. -/
theorem State.afterRead_frame (s : State) (a : Word) :
    (s.afterRead a).regs = s.regs ∧ (s.afterRead a).pc = s.pc ∧ (s.afterRead a).cond = s.cond ∧
      (s.afterRead a).run = s.run ∧ (s.afterRead a).faultInfo = s.faultInfo ∧
      (s.afterRead a).stopReq = s.stopReq := by
  unfold State.afterRead
  split
  · exact s.pollKeyboard_frame
  · exact ⟨rfl, rfl, rfl, rfl, rfl, rfl⟩

@[simp] theorem State.afterRead_regs (s : State) (a : Word) : (s.afterRead a).regs = s.regs :=
  (s.afterRead_frame a).1

@[simp] theorem State.afterRead_reg (s : State) (a : Word) (q : Reg) :
    (s.afterRead a).reg q = s.reg q := by simp [State.reg]

@[simp] theorem State.afterRead_pc (s : State) (a : Word) : (s.afterRead a).pc = s.pc :=
  (s.afterRead_frame a).2.1

@[simp] theorem State.afterRead_cond (s : State) (a : Word) : (s.afterRead a).cond = s.cond :=
  (s.afterRead_frame a).2.2.1

@[simp] theorem State.afterRead_run (s : State) (a : Word) : (s.afterRead a).run = s.run :=
  (s.afterRead_frame a).2.2.2.1

@[simp] theorem State.afterRead_faultInfo (s : State) (a : Word) :
    (s.afterRead a).faultInfo = s.faultInfo := (s.afterRead_frame a).2.2.2.2.1

@[simp] theorem State.afterRead_stopReq (s : State) (a : Word) :
    (s.afterRead a).stopReq = s.stopReq := (s.afterRead_frame a).2.2.2.2.2

/-- A read changes no Word but KBSR and KBDR (`20_memory.md` R54). -/
theorem State.afterRead_word_other (s : State) (a : Word) {x : Word} (h1 : x ≠ Config.kbsr)
    (h2 : x ≠ Config.kbdr) : (s.afterRead a).word x = s.word x := by
  unfold State.afterRead
  split
  · rcases s.pollKeyboard_cases with ⟨-, h⟩ | ⟨-, h⟩
    · rw [h, State.word_memWrite_other _ _ h1]; rfl
    · rw [h, State.word_memWrite_other _ _ h2, State.word_memWrite_other _ _ h1]; rfl
  · rfl

/-- A read keeps the canonical form of memory. -/
theorem State.afterRead_wf (s : State) (a : Word) (h : s.mem.wf) : (s.afterRead a).mem.wf := by
  unfold State.afterRead
  split
  · rcases s.pollKeyboard_cases with ⟨-, hp⟩ | ⟨-, hp⟩
    · rw [hp]; exact State.memWrite_wf _ _ _ h
    · rw [hp]; exact State.memWrite_wf _ _ _ (State.memWrite_wf _ _ _ h)
  · exact h

/-- A read of KBSR returns exactly 0x8000 or 0x0000, by the host's answer (`20_memory.md` R54). -/
theorem State.memRead_kbsr (s : State) (h : s.mem.wf) :
    s.memRead Config.kbsr = if s.ports.pollAnswer then 0x8000 else 0x0000 := by
  simp only [State.memRead, State.afterRead_kbsr]
  rcases s.pollKeyboard_cases with ⟨ha, hp⟩ | ⟨ha, hp⟩
  · rw [hp, ha, State.word_memWrite_same (s.setPorts s.ports.polled) _ _ h]; rfl
  · rw [hp, ha, State.word_memWrite_other _ _ kbsr_ne_kbdr,
      State.word_memWrite_same (s.setPorts s.ports.polled.charRead) _ _ h]
    rfl

/-- A read leaves the images still to load alone (`70_reset_and_hazards.md` R255). -/
theorem State.afterRead_images (s : State) (a : Word) :
    (s.afterRead a).ports.images = s.ports.images := by
  unfold State.afterRead
  split
  · rcases s.pollKeyboard_cases with ⟨-, hp⟩ | ⟨-, hp⟩ <;> rw [hp] <;> rfl
  · rfl

/-- The port transactions of a read come after what was there before. -/
theorem State.afterRead_trace (s : State) (a : Word) :
    ∃ es, (s.afterRead a).ports.trace = s.ports.trace ++ es := by
  unfold State.afterRead
  split
  · rcases s.pollKeyboard_cases with ⟨-, h⟩ | ⟨-, h⟩
    · exact ⟨[.pollInput s.ports.pollAnswer], by rw [h]; simp⟩
    · exact ⟨[.pollInput s.ports.pollAnswer, .readChar s.ports.polled.nextChar], by rw [h]; simp⟩
  · exact ⟨[], by simp⟩

/-- A read writes nothing to the console and emits no event (`20_memory.md` R54). -/
theorem State.afterRead_output (s : State) (a : Word) :
    (s.afterRead a).output = s.output ∧ (s.afterRead a).diag = s.diag := by
  unfold State.afterRead
  split
  · rcases s.pollKeyboard_cases with ⟨-, h⟩ | ⟨-, h⟩ <;> rw [h] <;>
      simp [State.output, State.diag, PortEvent.outputByte, PortEvent.diagEvent]
  · exact ⟨rfl, rfl⟩

/-! ## Results and flags -/

@[simp] theorem State.writeResult_reg_same (s : State) (dr : Reg) (v : Word) :
    (s.writeResult dr v).reg dr = v := by simp [State.writeResult, State.setCC]

@[simp] theorem State.writeResult_reg_other (s : State) {dr q : Reg} (v : Word) (h : q ≠ dr) :
    (s.writeResult dr v).reg q = s.reg q := by simp [State.writeResult, State.setCC, h]

@[simp] theorem State.writeResult_cond (s : State) (dr : Reg) (v : Word) :
    (s.writeResult dr v).cond = classify v := by simp [State.writeResult, State.setCC]

@[simp] theorem State.writeResult_pc (s : State) (dr : Reg) (v : Word) :
    (s.writeResult dr v).pc = s.pc := rfl

@[simp] theorem State.writeResult_mem (s : State) (dr : Reg) (v : Word) :
    (s.writeResult dr v).mem = s.mem := rfl

@[simp] theorem State.writeResult_word (s : State) (dr : Reg) (v x : Word) :
    (s.writeResult dr v).word x = s.word x := rfl

@[simp] theorem State.writeResult_run (s : State) (dr : Reg) (v : Word) :
    (s.writeResult dr v).run = s.run := rfl

@[simp] theorem State.writeResult_faultInfo (s : State) (dr : Reg) (v : Word) :
    (s.writeResult dr v).faultInfo = s.faultInfo := rfl

@[simp] theorem State.writeResult_stopReq (s : State) (dr : Reg) (v : Word) :
    (s.writeResult dr v).stopReq = s.stopReq := rfl

@[simp] theorem State.writeResult_ports (s : State) (dr : Reg) (v : Word) :
    (s.writeResult dr v).ports = s.ports := rfl

/-! ## Trap entry -/

theorem State.saveReturn_eq (s : State) : s.saveReturn = s.setReg 7 s.pc := rfl

@[simp] theorem State.saveReturn_reg7 (s : State) : s.saveReturn.reg 7 = s.pc := by
  simp [State.saveReturn]

@[simp] theorem State.saveReturn_reg_other (s : State) {q : Reg} (h : q ≠ 7) :
    s.saveReturn.reg q = s.reg q := by simp [State.saveReturn, h]

@[simp] theorem State.saveReturn_word (s : State) (x : Word) : s.saveReturn.word x = s.word x := rfl

@[simp] theorem State.saveReturn_pc (s : State) : s.saveReturn.pc = s.pc := rfl

@[simp] theorem State.saveReturn_cond (s : State) : s.saveReturn.cond = s.cond := rfl

@[simp] theorem State.saveReturn_mem (s : State) : s.saveReturn.mem = s.mem := rfl

@[simp] theorem State.saveReturn_run (s : State) : s.saveReturn.run = s.run := rfl

@[simp] theorem State.saveReturn_faultInfo (s : State) : s.saveReturn.faultInfo = s.faultInfo := rfl

@[simp] theorem State.saveReturn_stopReq (s : State) : s.saveReturn.stopReq = s.stopReq := rfl

@[simp] theorem State.saveReturn_ports (s : State) : s.saveReturn.ports = s.ports := rfl

end Sys2Proof.Machine
end

