-- ==== Sys2Proof/Laws/PerInstr.lean ====
section
/-! SUPPORT. The round trip of encoder and decoder, one lemma per instruction. -/

-- One simp set serves every format; each format leaves some of its lemmas unused.
set_option linter.unusedSimpArgs false

namespace Sys2Proof.Laws.RoundTrip

/-- An instruction's own Word decodes to the instruction, TRAP's general spelling to the row of its code. -/
def Statement (i : Instr) : Prop := i.wellFormed = true → decodeWord (encode i) = i.resolve

/-- How a Word with a given opcode and body decodes: the shared step of the lemmas below. -/
theorem decode_withOpcode (op : Opcode) (body : Word) (h : field body 12 4 = 0) :
    Opcode.ofBits (opcodeField (withOpcode op body)) = op := by
  rw [opcodeField_withOpcode op body h, Opcode.ofBits_bits]

/-- A TRAP's Word decodes to the row of its code. -/
theorem decode_encodeTrap (code : BitVec 8) : decodeWord (encodeTrap code) = decodeTrap code := by
  unfold decodeWord encodeTrap
  rw [decode_withOpcode _ _ (field_place_apart 0 12 4 code (.inl (by decide)))]
  simp [trapField, field_withOpcode, field_place_same]

theorem addReg (dr sr1 sr2 : Reg) : Statement (.addReg dr sr1 sr2) := by
  intro _
  unfold decodeWord encode
  rw [decode_withOpcode _ _ (by simp [field_or, field_place_apart])]
  simp [Instr.resolve, modeField, longField, drField, sr1Field, sr2Field, imm5Field, off6Field, off9Field,
    off11Field, nzpField, field_withOpcode, field_or, field_place_same, field_place_apart]

theorem addImm (dr sr1 : Reg) (imm5 : BitVec 5) : Statement (.addImm dr sr1 imm5) := by
  intro _
  unfold decodeWord encode
  rw [decode_withOpcode _ _ (by simp [field_or, field_place_apart])]
  simp [Instr.resolve, modeField, longField, drField, sr1Field, sr2Field, imm5Field, off6Field, off9Field,
    off11Field, nzpField, field_withOpcode, field_or, field_place_same, field_place_apart]

theorem andReg (dr sr1 sr2 : Reg) : Statement (.andReg dr sr1 sr2) := by
  intro _
  unfold decodeWord encode
  rw [decode_withOpcode _ _ (by simp [field_or, field_place_apart])]
  simp [Instr.resolve, modeField, longField, drField, sr1Field, sr2Field, imm5Field, off6Field, off9Field,
    off11Field, nzpField, field_withOpcode, field_or, field_place_same, field_place_apart]

theorem andImm (dr sr1 : Reg) (imm5 : BitVec 5) : Statement (.andImm dr sr1 imm5) := by
  intro _
  unfold decodeWord encode
  rw [decode_withOpcode _ _ (by simp [field_or, field_place_apart])]
  simp [Instr.resolve, modeField, longField, drField, sr1Field, sr2Field, imm5Field, off6Field, off9Field,
    off11Field, nzpField, field_withOpcode, field_or, field_place_same, field_place_apart]

theorem notReg (dr sr : Reg) : Statement (.notReg dr sr) := by
  intro _
  unfold decodeWord encode
  rw [decode_withOpcode _ _ (by simp [field_or, field_place_apart])]
  simp [Instr.resolve, modeField, longField, drField, sr1Field, sr2Field, imm5Field, off6Field, off9Field,
    off11Field, nzpField, field_withOpcode, field_or, field_place_same, field_place_apart]

theorem br (nzp : BitVec 3) (off9 : BitVec 9) : Statement (.br nzp off9) := by
  intro _
  unfold decodeWord encode
  rw [decode_withOpcode _ _ (by simp [field_or, field_place_apart])]
  simp [Instr.resolve, modeField, longField, drField, sr1Field, sr2Field, imm5Field, off6Field, off9Field,
    off11Field, nzpField, field_withOpcode, field_or, field_place_same, field_place_apart]

theorem jmp (base : Reg) : Statement (.jmp base) := by
  intro _
  unfold decodeWord encode
  rw [decode_withOpcode _ _ (by simp [field_or, field_place_apart])]
  simp [Instr.resolve, modeField, longField, drField, sr1Field, sr2Field, imm5Field, off6Field, off9Field,
    off11Field, nzpField, field_withOpcode, field_or, field_place_same, field_place_apart]

theorem jsr (off11 : BitVec 11) : Statement (.jsr off11) := by
  intro _
  unfold decodeWord encode
  rw [decode_withOpcode _ _ (by simp [field_or, field_place_apart])]
  simp [Instr.resolve, modeField, longField, drField, sr1Field, sr2Field, imm5Field, off6Field, off9Field,
    off11Field, nzpField, field_withOpcode, field_or, field_place_same, field_place_apart]

theorem jsrr (base : Reg) : Statement (.jsrr base) := by
  intro _
  unfold decodeWord encode
  rw [decode_withOpcode _ _ (by simp [field_or, field_place_apart])]
  simp [Instr.resolve, modeField, longField, drField, sr1Field, sr2Field, imm5Field, off6Field, off9Field,
    off11Field, nzpField, field_withOpcode, field_or, field_place_same, field_place_apart]

theorem ld (r : Reg) (off9 : BitVec 9) : Statement (.ld r off9) := by
  intro _
  unfold decodeWord encode
  rw [decode_withOpcode _ _ (by simp [field_or, field_place_apart])]
  simp [Instr.resolve, modeField, longField, drField, sr1Field, sr2Field, imm5Field, off6Field, off9Field,
    off11Field, nzpField, field_withOpcode, field_or, field_place_same, field_place_apart]

theorem ldi (r : Reg) (off9 : BitVec 9) : Statement (.ldi r off9) := by
  intro _
  unfold decodeWord encode
  rw [decode_withOpcode _ _ (by simp [field_or, field_place_apart])]
  simp [Instr.resolve, modeField, longField, drField, sr1Field, sr2Field, imm5Field, off6Field, off9Field,
    off11Field, nzpField, field_withOpcode, field_or, field_place_same, field_place_apart]

theorem lea (r : Reg) (off9 : BitVec 9) : Statement (.lea r off9) := by
  intro _
  unfold decodeWord encode
  rw [decode_withOpcode _ _ (by simp [field_or, field_place_apart])]
  simp [Instr.resolve, modeField, longField, drField, sr1Field, sr2Field, imm5Field, off6Field, off9Field,
    off11Field, nzpField, field_withOpcode, field_or, field_place_same, field_place_apart]

theorem st (r : Reg) (off9 : BitVec 9) : Statement (.st r off9) := by
  intro _
  unfold decodeWord encode
  rw [decode_withOpcode _ _ (by simp [field_or, field_place_apart])]
  simp [Instr.resolve, modeField, longField, drField, sr1Field, sr2Field, imm5Field, off6Field, off9Field,
    off11Field, nzpField, field_withOpcode, field_or, field_place_same, field_place_apart]

theorem sti (r : Reg) (off9 : BitVec 9) : Statement (.sti r off9) := by
  intro _
  unfold decodeWord encode
  rw [decode_withOpcode _ _ (by simp [field_or, field_place_apart])]
  simp [Instr.resolve, modeField, longField, drField, sr1Field, sr2Field, imm5Field, off6Field, off9Field,
    off11Field, nzpField, field_withOpcode, field_or, field_place_same, field_place_apart]

theorem ldr (r base : Reg) (off6 : BitVec 6) : Statement (.ldr r base off6) := by
  intro _
  unfold decodeWord encode
  rw [decode_withOpcode _ _ (by simp [field_or, field_place_apart])]
  simp [Instr.resolve, modeField, longField, drField, sr1Field, sr2Field, imm5Field, off6Field, off9Field,
    off11Field, nzpField, field_withOpcode, field_or, field_place_same, field_place_apart]

theorem str (r base : Reg) (off6 : BitVec 6) : Statement (.str r base off6) := by
  intro _
  unfold decodeWord encode
  rw [decode_withOpcode _ _ (by simp [field_or, field_place_apart])]
  simp [Instr.resolve, modeField, longField, drField, sr1Field, sr2Field, imm5Field, off6Field, off9Field,
    off11Field, nzpField, field_withOpcode, field_or, field_place_same, field_place_apart]

theorem reserved8 (rest : BitVec 12) : Statement (.reserved8 rest) := by
  intro _
  unfold decodeWord encode
  rw [decode_withOpcode _ _ (by simp [field_or, field_place_apart])]
  simp [Instr.resolve, modeField, longField, drField, sr1Field, sr2Field, imm5Field, off6Field, off9Field,
    off11Field, nzpField, field_withOpcode, field_or, field_place_same, field_place_apart]

theorem reservedD (rest : BitVec 12) : Statement (.reservedD rest) := by
  intro _
  unfold decodeWord encode
  rw [decode_withOpcode _ _ (by simp [field_or, field_place_apart])]
  simp [Instr.resolve, modeField, longField, drField, sr1Field, sr2Field, imm5Field, off6Field, off9Field,
    off11Field, nzpField, field_withOpcode, field_or, field_place_same, field_place_apart]

theorem trap (code : BitVec 8) : Statement (.trap code) := fun _ => decode_encodeTrap code

theorem getc : Statement .getc := fun _ => decode_encodeTrap 0x20

theorem out : Statement .out := fun _ => decode_encodeTrap 0x21

theorem puts : Statement .puts := fun _ => decode_encodeTrap 0x22

theorem inTrap : Statement .inTrap := fun _ => decode_encodeTrap 0x23

theorem putsp : Statement .putsp := fun _ => decode_encodeTrap 0x24

theorem halt : Statement .halt := fun _ => decode_encodeTrap 0x25

theorem trapUnknown (code : BitVec 8) : Statement (.trapUnknown code) := by
  intro h
  have hd : decodeTrap code = .trapUnknown code := by
    revert h; revert code; decide
  exact (decode_encodeTrap code).trans hd

end Sys2Proof.Laws.RoundTrip
end

