-- ==== Sys2Proof/Laws/Scan.lean ====
section
/-! SUPPORT. What the string loop of PUTS and PUTSP can do: what it leaves alone, that a longer loop goes
on from a shorter one, and that the rounds of `scanBound` decide whether it ever ends. -/

namespace Sys2Proof.Machine

/-- What a string loop leaves alone: everything but KBSR, KBDR and the ports (`43_trap.md` R205). -/
structure ScanFrame (s t : State) : Prop where
  regs : t.regs = s.regs
  pc : t.pc = s.pc
  cond : t.cond = s.cond
  run : t.run = s.run
  faultInfo : t.faultInfo = s.faultInfo
  stopReq : t.stopReq = s.stopReq
  word : ∀ x, x ≠ Config.kbsr → x ≠ Config.kbdr → t.word x = s.word x
  wf : s.mem.wf → t.mem.wf
  images : t.ports.images = s.ports.images
  trace : ∃ es, t.ports.trace = s.ports.trace ++ es

theorem ScanFrame.refl (s : State) : ScanFrame s s :=
  ⟨rfl, rfl, rfl, rfl, rfl, rfl, fun _ _ _ => rfl, id, rfl, [], by simp⟩

theorem ScanFrame.trans {s t u : State} (h : ScanFrame s t) (k : ScanFrame t u) : ScanFrame s u :=
  ⟨k.regs.trans h.regs, k.pc.trans h.pc, k.cond.trans h.cond, k.run.trans h.run,
    k.faultInfo.trans h.faultInfo, k.stopReq.trans h.stopReq,
    fun x h1 h2 => (k.word x h1 h2).trans (h.word x h1 h2), fun w => k.wf (h.wf w),
    k.images.trans h.images, by
      obtain ⟨es, he⟩ := h.trace
      obtain ⟨fs, hf⟩ := k.trace
      exact ⟨es ++ fs, by rw [hf, he, List.append_assoc]⟩⟩

theorem ScanFrame.afterRead (s : State) (a : Word) : ScanFrame s (s.afterRead a) :=
  ⟨by simp, by simp, by simp, by simp, by simp, by simp,
    fun _ h1 h2 => s.afterRead_word_other a h1 h2, s.afterRead_wf a,
    s.afterRead_images a, s.afterRead_trace a⟩

theorem ScanFrame.writeChars (s : State) (bs : List Byte) : ScanFrame s (s.writeChars bs) :=
  ⟨rfl, rfl, rfl, rfl, rfl, rfl, fun _ _ _ => rfl, id, rfl, bs.map .writeChar, by simp⟩

/-! ## The loop, one Word and many -/

variable {chars : Word → Option (List Byte)}

/-- The state a scan stands in, ended or not. -/
def Scan.state : Scan → State
  | .ended s => s
  | .going _ s => s

/-- What the loop does after `m` Words, when `n` more may be read. -/
def Scan.resume (chars : Word → Option (List Byte)) (n : Nat) : Scan → Scan
  | .ended s => .ended s
  | .going a s => scan chars n a s

/-- A Word that is a terminator ends the loop. -/
theorem scan_end {a : Word} {s : State} (n : Nat) (h : chars (s.memRead a) = none) :
    scan chars (n + 1) a s = .ended (s.afterRead a) := by
  simp only [scan, h]

/-- A Word that is none is written, and the loop goes on. -/
theorem scan_pass {a : Word} {s : State} {bs : List Byte} (n : Nat)
    (h : chars (s.memRead a) = some bs) :
    scan chars (n + 1) a s = scan chars n (a + 1) ((s.afterRead a).writeChars bs) := by
  simp only [scan, h]

/-- A loop over `m + n` Words is one over `m`, gone on with over `n`. -/
theorem scan_add (m n : Nat) (a : Word) (s : State) :
    scan chars (m + n) a s = (scan chars m a s).resume chars n := by
  induction m generalizing a s with
  | zero => rw [Nat.zero_add]; rfl
  | succ m ih =>
    rw [Nat.succ_add]
    cases h : chars (s.memRead a) with
    | none => rw [scan_end _ h, scan_end _ h]; rfl
    | some bs => rw [scan_pass _ h, scan_pass _ h, ih]

/-- The loop leaves all but KBSR, KBDR and the ports alone. -/
theorem scan_frame (n : Nat) (a : Word) (s : State) : ScanFrame s (scan chars n a s).state := by
  induction n generalizing a s with
  | zero => exact ScanFrame.refl s
  | succ n ih =>
    cases h : chars (s.memRead a) with
    | none => rw [scan_end _ h]; exact ScanFrame.afterRead s a
    | some bs =>
      rw [scan_pass _ h]
      exact ((ScanFrame.afterRead s a).trans (ScanFrame.writeChars _ _)).trans (ih _ _)

/-- The rounds of a scan are one loop over so many times the memory. -/
theorem scanRounds_eq (k : Nat) (a : Word) (s : State) :
    scanRounds chars k a s =
      match scan chars (k * 65536) a s with
      | .ended t => some t
      | .going _ _ => none := by
  induction k generalizing a s with
  | zero => rw [Nat.zero_mul]; rfl
  | succ k ih =>
    have hsum : (k + 1) * 65536 = 65536 + k * 65536 := by omega
    rw [hsum, scan_add]
    unfold scanRounds
    cases scan chars 65536 a s with
    | ended t => rfl
    | going b t => exact ih b t

/-- The loop still goes on after `n` Words. -/
def Goes (chars : Word → Option (List Byte)) (n : Nat) (a : Word) (s : State) : Prop :=
  ∃ b t, scan chars n a s = .going b t

/-- A loop that goes on after `m + n` Words goes on after `m`, and from there for `n`. -/
theorem goes_add {m n : Nat} {a : Word} {s : State} :
    Goes chars (m + n) a s ↔ ∃ b t, scan chars m a s = .going b t ∧ Goes chars n b t := by
  unfold Goes
  rw [scan_add]
  cases scan chars m a s with
  | ended t => exact ⟨fun ⟨_, _, h⟩ => (by cases h), fun ⟨_, _, h, _⟩ => (by cases h)⟩
  | going b t =>
    exact ⟨fun h => ⟨b, t, rfl, h⟩, fun ⟨_, _, h, k⟩ => by cases h; exact k⟩

theorem Goes.shorter {m n : Nat} {a : Word} {s : State} (h : Goes chars n a s) (hm : m ≤ n) :
    Goes chars m a s := by
  obtain ⟨k, rfl⟩ := Nat.exists_eq_add_of_le hm
  obtain ⟨b, t, h, -⟩ := goes_add.mp h
  exact ⟨b, t, h⟩

/-- A scan has no end within its rounds exactly when its loop still goes on after them. -/
theorem scanRounds_eq_none {k : Nat} {a : Word} {s : State} :
    scanRounds chars k a s = none ↔ Goes chars (k * 65536) a s := by
  rw [scanRounds_eq]
  unfold Goes
  cases scan chars (k * 65536) a s with
  | ended t => exact ⟨fun h => (by cases h), fun ⟨_, _, h⟩ => (by cases h)⟩
  | going b t => exact ⟨fun _ => ⟨b, t, rfl⟩, fun _ => rfl⟩

/-- A loop has one end: where it ends after `m` Words, no other number of Words ends it elsewhere. -/
theorem scan_ended_unique {m n : Nat} {a : Word} {s t u : State} (h : scan chars m a s = .ended t)
    (k : scan chars n a s = .ended u) : t = u := by
  rcases Nat.le_total m n with hl | hl <;> obtain ⟨d, rfl⟩ := Nat.exists_eq_add_of_le hl
  · rw [scan_add, h] at k; cases k; rfl
  · rw [scan_add, k] at h; cases h; rfl

/-- A scan that ends within its rounds ends where its loop does. -/
theorem scanRounds_eq_some {k : Nat} {a : Word} {s t : State} :
    scanRounds chars k a s = some t ↔ scan chars (k * 65536) a s = .ended t := by
  rw [scanRounds_eq]
  cases scan chars (k * 65536) a s with
  | ended u => exact ⟨fun h => by cases h; rfl, fun h => by cases h; rfl⟩
  | going b u => exact ⟨fun h => (by cases h), fun h => (by cases h)⟩

/-! ## The distance to KBSR -/

/-- One step nearer to an address is one Word less to go. -/
theorem distance_step (k a : Word) (n : Nat) (h : (k - a).toNat = n + 1) : (k - (a + 1)).toNat = n := by
  have e : k - (a + 1) = k - a - 1 := by
    rw [BitVec.sub_eq_add_neg, BitVec.neg_add, BitVec.sub_eq_add_neg, BitVec.sub_eq_add_neg,
      ← BitVec.add_assoc, BitVec.sub_eq_add_neg]
  have l : (1 : Word) ≤ k - a := by rw [BitVec.le_def, h]; simp
  rw [e, BitVec.toNat_sub_of_le l, h]
  rfl

theorem eq_of_distance_zero (k a : Word) (h : (k - a).toNat = 0) : a = k := by
  have hz : k - a = 0 := BitVec.eq_of_toNat_eq h
  exact ((BitVec.sub_eq_iff_eq_add.mp hz).trans (BitVec.zero_add a)).symm

/-- Somewhere else than at an address, it is at least one Word ahead. -/
theorem distance_pos (k a : Word) (h : a ≠ k) : ∃ n, (k - a).toNat = n + 1 :=
  Nat.exists_eq_succ_of_ne_zero fun hz => h (eq_of_distance_zero k a hz)

/-- A loop that goes on up to an address and past every Word before it stands there. -/
theorem ne_of_distance (k a : Word) (n : Nat) (h : (k - a).toNat = n + 1) : a ≠ k := by
  intro e
  rw [e, BitVec.sub_self] at h
  cases h

/-! ## Nothing the host does can change any more -/

/-- The script is used up, the input has no end, and every later poll finds a character other than 0x00. -/
structure Ports.Steady (p : Ports) : Prop where
  polls : p.polls = []
  keys : p.keys = []
  endless : p.keysEnded = false
  freePolls : p.freePolls.yeses Config.hostPollRun = none
  freeText : p.freeText.yeses Config.hostTextRun = none

theorem FreeSeq.yeses_next_endless {free : Nat → Option Nat} {q : FreeSeq} (h : q.yeses free = none) :
    (q.next free).yeses free = none := by
  simp only [FreeSeq.next, h]
  rfl

theorem FreeSeq.answer_endless {free : Nat → Option Nat} {q : FreeSeq} (h : q.yeses free = none) :
    q.answer free = true := by
  simp only [FreeSeq.answer, h]

/-- A free character of a run is not 0x00. -/
theorem freeChar_ne_zero {p : Ports} (h : p.freeText.answer Config.hostTextRun = true) :
    p.freeChar ≠ 0 := by
  unfold Ports.freeChar
  rw [if_pos h]
  intro hz
  have := congrArg BitVec.toNat hz
  simp at this
  omega

theorem zext8_ne_zero {c : Byte} (h : c ≠ 0) : zext8 c ≠ 0 := by
  intro hz
  apply h
  have := congrArg lowByte hz
  rw [lowByte_zext8] at this
  exact this.trans (by decide)

theorem Ports.Steady.pollAnswer {p : Ports} (h : p.Steady) : p.pollAnswer = true := by
  simp [Ports.pollAnswer, Ports.charToCome, Ports.pollDraw, h.polls, h.keys, h.endless,
    FreeSeq.answer_endless h.freePolls]

theorem Ports.Steady.polled {p : Ports} (h : p.Steady) : p.polled.Steady := by
  refine ⟨by simp [Ports.polled, h.polls], h.keys, h.endless, ?_, h.freeText⟩
  show (p.pollsAfter).yeses _ = none
  simp only [Ports.pollsAfter, h.polls]
  exact FreeSeq.yeses_next_endless h.freePolls

theorem Ports.Steady.charRead {p : Ports} (h : p.Steady) : p.charRead.Steady := by
  refine ⟨h.polls, by simp [Ports.charRead, h.keys], h.endless, h.freePolls, ?_⟩
  show (p.textAfter).yeses _ = none
  simp only [Ports.textAfter, h.keys]
  exact FreeSeq.yeses_next_endless h.freeText

theorem Ports.Steady.nextChar {p : Ports} (h : p.Steady) : p.nextChar ≠ 0 := by
  simp only [Ports.nextChar, h.keys]
  exact freeChar_ne_zero (FreeSeq.answer_endless h.freeText)

theorem Ports.Steady.charsWritten {p : Ports} (h : p.Steady) (bs : List Byte) :
    (p.charsWritten bs).Steady := ⟨h.polls, h.keys, h.endless, h.freePolls, h.freeText⟩

/-- What the next poll that finds input leaves at KBSR and KBDR (`20_memory.md` R54). -/
theorem State.pollKeyboard_true {s : State} (hw : s.mem.wf) (h : s.ports.pollAnswer = true) :
    s.memRead Config.kbsr = 0x8000 ∧
      (s.afterRead Config.kbsr).word Config.kbdr = zext8 s.ports.polled.nextChar ∧
      (s.afterRead Config.kbsr).ports = s.ports.polled.charRead := by
  refine ⟨by rw [State.memRead_kbsr s hw, h]; rfl, ?_⟩
  rw [State.afterRead_kbsr]
  rcases s.pollKeyboard_cases with ⟨hf, -⟩ | ⟨-, hp⟩
  · rw [h] at hf; cases hf
  · rw [hp]
    exact ⟨State.word_memWrite_same _ _ _
      (State.memWrite_wf (s.setPorts s.ports.polled.charRead) _ _ hw), rfl⟩

/-- The terminator is the Word 0x0000 at least, and neither 0x8000 nor a character other than 0x00. -/
structure EndsLikePuts (chars : Word → Option (List Byte)) : Prop where
  zero : chars 0x0000 = none
  ready : chars 0x8000 ≠ none
  char : ∀ c : Byte, c ≠ 0 → chars (zext8 c) ≠ none

/-- One pass of the loop in the steady state: it stays steady, and what was no terminator is none after. -/
theorem steady_pass (hc : EndsLikePuts chars) {s : State} {a : Word} (bs : List Byte) (hw : s.mem.wf)
    (hs : s.ports.Steady) :
    ((s.afterRead a).writeChars bs).ports.Steady ∧
      ∀ x, x ≠ Config.kbsr → chars (s.word x) ≠ none →
        chars (((s.afterRead a).writeChars bs).word x) ≠ none := by
  by_cases ha : a = Config.kbsr
  · subst ha
    obtain ⟨-, hd, hp⟩ := State.pollKeyboard_true hw hs.pollAnswer
    refine ⟨by rw [State.writeChars_ports, hp]; exact hs.polled.charRead.charsWritten bs, ?_⟩
    intro x hx h
    rw [State.writeChars_word]
    by_cases hk : x = Config.kbdr
    · rw [hk, hd]; exact hc.char _ hs.polled.nextChar
    · rw [State.afterRead_word_other _ _ hx hk]; exact h
  · rw [State.afterRead_of_ne s ha]
    exact ⟨hs.charsWritten bs, fun x _ h => h⟩

/-- The loop in the steady state: it stays steady, every Word it passed is no terminator afterwards, and
what was no terminator still is none. -/
theorem steady_scan (hc : EndsLikePuts chars) (n : Nat) {a b : Word} {s t : State} (hw : s.mem.wf)
    (hs : s.ports.Steady) (h : scan chars n a s = .going b t) :
    t.mem.wf ∧ t.ports.Steady ∧ b = a + BitVec.ofNat 16 n ∧
      (∀ x, x ≠ Config.kbsr → chars (s.word x) ≠ none → chars (t.word x) ≠ none) ∧
      ∀ i, i < n → a + BitVec.ofNat 16 i ≠ Config.kbsr → chars (t.word (a + BitVec.ofNat 16 i)) ≠ none := by
  induction n generalizing a s with
  | zero =>
    cases h
    exact ⟨hw, hs, by simp, fun _ _ h => h, fun i hi => absurd hi (Nat.not_lt_zero i)⟩
  | succ n ih =>
    cases hr : chars (s.memRead a) with
    | none => rw [scan_end _ hr] at h; cases h
    | some bs =>
      rw [scan_pass _ hr] at h
      obtain ⟨p1, p2⟩ := steady_pass hc (a := a) bs hw hs
      obtain ⟨i1, i2, i3, i4, i5⟩ := ih (s := (s.afterRead a).writeChars bs) (s.afterRead_wf a hw) p1 h
      have shift : ∀ i, a + 1 + BitVec.ofNat 16 i = a + BitVec.ofNat 16 (i + 1) := by
        intro i
        rw [BitVec.add_assoc, BitVec.ofNat_add, BitVec.add_comm 1]
        rfl
      refine ⟨i1, i2, by rw [i3, shift], fun x hx hn => i4 x hx (p2 x hx hn), fun i hi hk => ?_⟩
      cases i with
      | zero =>
        have e : a + BitVec.ofNat 16 0 = a := by simp
        rw [e] at hk ⊢
        refine i4 a hk (p2 a hk ?_)
        rw [← State.memRead_of_ne s hk, hr]
        simp
      | succ i =>
        rw [← shift] at hk ⊢
        exact i5 i (Nat.lt_of_succ_lt_succ hi) hk

/-- In the steady state, with no terminator in memory, the loop goes on for ever. -/
theorem goes_forever_of_clear (hc : EndsLikePuts chars) (n : Nat) (a : Word) {s : State} (hw : s.mem.wf)
    (hs : s.ports.Steady) (hm : ∀ x, x ≠ Config.kbsr → chars (s.word x) ≠ none) : Goes chars n a s := by
  induction n generalizing a s with
  | zero => exact ⟨a, s, rfl⟩
  | succ n ih =>
    have hr : chars (s.memRead a) ≠ none := by
      by_cases ha : a = Config.kbsr
      · rw [ha, (State.pollKeyboard_true hw hs.pollAnswer).1]; exact hc.ready
      · rw [State.memRead_of_ne s ha]; exact hm a ha
    obtain ⟨bs, hb⟩ := Option.ne_none_iff_exists'.mp hr
    obtain ⟨p1, p2⟩ := steady_pass hc (a := a) bs hw hs
    obtain ⟨b, t, h⟩ := ih (a + 1) (s := (s.afterRead a).writeChars bs) (s.afterRead_wf a hw) p1 (fun x hx => p2 x hx (hm x hx))
    exact ⟨b, t, by rw [scan_pass _ hb]; exact h⟩

/-- In the steady state, a loop that has passed the whole memory once goes on for ever. -/
theorem goes_forever (hc : EndsLikePuts chars) {a : Word} {s : State} (hw : s.mem.wf)
    (hs : s.ports.Steady) (h : Goes chars 65536 a s) (n : Nat) : Goes chars n a s := by
  obtain ⟨b, t, h⟩ := h
  obtain ⟨h1, h2, -, -, h5⟩ := steady_scan hc 65536 hw hs h
  have hm : ∀ x, x ≠ Config.kbsr → chars (t.word x) ≠ none := by
    intro x hx
    have e : a + BitVec.ofNat 16 (x - a).toNat = x := by
      rw [BitVec.ofNat_toNat, BitVec.setWidth_eq, BitVec.add_comm, BitVec.sub_add_cancel]
    have := h5 (x - a).toNat (x - a).isLt
    rw [e] at this
    exact this hx
  have hg : Goes chars (65536 + n) a s :=
    goes_add.mpr ⟨b, t, h, goes_forever_of_clear hc n b h1 h2 hm⟩
  exact hg.shorter (Nat.le_add_left n 65536)

/-! ## Before that, every poll uses something up -/

/-- What polls can use up before the host's answers are steady. -/
def Ports.budget (p : Ports) : Nat :=
  p.polls.length + p.keys.length + (p.freePolls.yeses Config.hostPollRun).getD 0 +
    (p.freeText.yeses Config.hostTextRun).getD 0

/-- A yes uses up one of a run, or the run has no end. -/
theorem FreeSeq.yeses_next {free : Nat → Option Nat} {q : FreeSeq} (h : q.answer free = true) :
    (q.yeses free = none ∧ (q.next free).yeses free = none) ∨
      ∃ n, q.yeses free = some (n + 1) ∧ (q.next free).yeses free = some n := by
  cases hy : q.yeses free with
  | none => exact .inl ⟨rfl, FreeSeq.yeses_next_endless hy⟩
  | some m =>
    cases m with
    | zero => simp [FreeSeq.answer, hy] at h
    | succ n => exact .inr ⟨n, rfl, by simp only [FreeSeq.next, hy]; rfl⟩

/-- What the poll's answer uses up: a scripted one or one of a run, unless every later one is true. -/
theorem poll_uses_up {p : Ports} (h : p.pollAnswer = true) :
    p.polled.polls.length + (p.polled.freePolls.yeses Config.hostPollRun).getD 0 <
        p.polls.length + (p.freePolls.yeses Config.hostPollRun).getD 0 ∨
      p.polls = [] ∧ p.freePolls.yeses Config.hostPollRun = none ∧ p.polled.polls = [] ∧
        p.polled.freePolls.yeses Config.hostPollRun = none := by
  have hd : p.pollDraw = true := by
    simp only [Ports.pollAnswer, Bool.and_eq_true] at h
    exact h.2
  cases hp : p.polls with
  | cons b bs =>
    left
    have e : p.polled.freePolls = p.freePolls := by simp [Ports.polled, Ports.pollsAfter, hp]
    have e' : p.polled.polls = bs := by simp [Ports.polled, hp]
    rw [e, e', List.length_cons]
    omega
  | nil =>
    have e : p.polled.freePolls = p.freePolls.next Config.hostPollRun := by
      simp [Ports.polled, Ports.pollsAfter, hp]
    have e' : p.polled.polls = [] := by simp [Ports.polled, hp]
    simp only [Ports.pollDraw, hp] at hd
    rw [e, e']
    rcases FreeSeq.yeses_next hd with ⟨h1, h2⟩ | ⟨n, h1, h2⟩
    · exact .inr ⟨rfl, h1, rfl, h2⟩
    · left; rw [h1, h2]; simp

/-- What a character uses up: a scripted one or one of a run, unless it is 0x00 or no later one is. -/
theorem char_uses_up (p : Ports) :
    p.charRead.keys.length + (p.charRead.freeText.yeses Config.hostTextRun).getD 0 <
        p.keys.length + (p.freeText.yeses Config.hostTextRun).getD 0 ∨
      (p.keys = [] ∧ p.freeText.yeses Config.hostTextRun = none ∧ p.charRead.keys = [] ∧
        p.charRead.freeText.yeses Config.hostTextRun = none) ∨
      p.nextChar = 0 := by
  cases hk : p.keys with
  | cons c cs =>
    left
    have e : p.charRead.freeText = p.freeText := by simp [Ports.charRead, Ports.textAfter, hk]
    have e' : p.charRead.keys = cs := by simp [Ports.charRead, hk]
    rw [e, e', List.length_cons]
    omega
  | nil =>
    have e : p.charRead.freeText = p.freeText.next Config.hostTextRun := by
      simp [Ports.charRead, Ports.textAfter, hk]
    have e' : p.charRead.keys = [] := by simp [Ports.charRead, hk]
    cases ha : p.freeText.answer Config.hostTextRun with
    | false =>
      right; right
      simp [Ports.nextChar, hk, Ports.freeChar, ha]
    | true =>
      rw [e, e']
      rcases FreeSeq.yeses_next ha with ⟨h1, h2⟩ | ⟨n, h1, h2⟩
      · exact .inr (.inl ⟨rfl, h1, rfl, h2⟩)
      · left; rw [h1, h2]; simp

/-- A poll that finds input leaves the host's answers steady, or uses something up, or brings 0x00. -/
theorem budget_uses_up {p : Ports} (h : p.pollAnswer = true) :
    p.polled.charRead.Steady ∨ p.polled.charRead.budget < p.budget ∨ p.polled.nextChar = 0 := by
  have hc : p.charToCome = true := p.charToCome_of_pollAnswer h
  have k1 : p.polled.keys = p.keys := rfl
  have k2 : p.polled.freeText = p.freeText := rfl
  have k3 : p.polled.charRead.polls = p.polled.polls := rfl
  have k4 : p.polled.charRead.freePolls = p.polled.freePolls := rfl
  have hch := char_uses_up p.polled
  rw [k1, k2] at hch
  unfold Ports.budget
  rw [k3, k4]
  rcases hch with hl | ⟨h1, h2, h3, h4⟩ | hz
  · right; left
    rcases poll_uses_up h with hp | ⟨q1, q2, q3, q4⟩
    · omega
    · rw [q1, q2, q3, q4]; omega
  · rcases poll_uses_up h with hp | ⟨q1, q2, q3, q4⟩
    · right; left; rw [h1, h2, h3, h4]; omega
    · left
      refine ⟨q3, h3, ?_, q4, h4⟩
      show p.keysEnded = false
      simpa [Ports.charToCome, h1] using hc
  · exact .inr (.inr hz)

/-- The Words before KBSR leave memory alone and only write to the console. -/
theorem scan_to_kbsr (n : Nat) {a b : Word} {s t : State} (hd : (Config.kbsr - a).toNat = n)
    (h : scan chars n a s = .going b t) : b = Config.kbsr ∧ ∃ bs, t = s.writeChars bs := by
  induction n generalizing a s with
  | zero =>
    cases h
    exact ⟨eq_of_distance_zero _ _ hd, [], by
      simp [State.writeChars, Ports.charsWritten, State.setPorts]⟩
  | succ n ih =>
    have ha : a ≠ Config.kbsr := ne_of_distance _ _ _ hd
    cases hr : chars (s.memRead a) with
    | none => rw [scan_end _ hr] at h; cases h
    | some bs =>
      rw [scan_pass _ hr, State.afterRead_of_ne s ha] at h
      obtain ⟨hb, cs, ht⟩ := ih (distance_step _ _ _ hd) h
      refine ⟨hb, bs ++ cs, ?_⟩
      rw [ht]
      simp only [State.writeChars_eq, State.setPorts_ports, Ports.charsWritten_append]
      rfl

theorem kbsr_next_ne : Config.kbsr + 1 ≠ Config.kbsr := by decide

theorem kbsr_next_next : Config.kbsr + 1 + 1 = Config.kbdr := by decide

/-- KBDR is read two Words after KBSR: a 0x0000 there ends the loop. -/
theorem not_goes_of_kbdr (hc : EndsLikePuts chars) {s : State} (h : s.word Config.kbdr = 0) :
    ¬ Goes chars 2 (Config.kbsr + 1) s := by
  rintro ⟨b, t, hg⟩
  cases hr : chars (s.memRead (Config.kbsr + 1)) with
  | none => rw [scan_end _ hr] at hg; cases hg
  | some bs =>
    rw [scan_pass _ hr, State.afterRead_of_ne s kbsr_next_ne, kbsr_next_next] at hg
    have hz : chars ((s.writeChars bs).memRead Config.kbdr) = none := by
      rw [State.memRead_of_ne _ kbsr_ne_kbdr.symm, State.writeChars_word, h]
      exact hc.zero
    rw [scan_end _ hz] at hg
    cases hg

/-- A loop that goes on past KBSR: the poll there found input. -/
theorem goes_past_kbsr (hc : EndsLikePuts chars) {s : State} (hw : s.mem.wf) {n : Nat}
    (h : Goes chars (n + 1) Config.kbsr s) :
    s.ports.pollAnswer = true ∧
      ∃ bs, scan chars 1 Config.kbsr s = .going (Config.kbsr + 1) ((s.afterRead Config.kbsr).writeChars bs) ∧
        Goes chars n (Config.kbsr + 1) ((s.afterRead Config.kbsr).writeChars bs) := by
  obtain ⟨b, t, hg⟩ := h
  cases hr : chars (s.memRead Config.kbsr) with
  | none => rw [scan_end _ hr] at hg; cases hg
  | some bs =>
    rw [scan_pass _ hr] at hg
    refine ⟨?_, bs, by rw [scan_pass 0 hr]; rfl, b, t, hg⟩
    cases ha : s.ports.pollAnswer with
    | true => rfl
    | false =>
      rw [State.memRead_kbsr s hw, ha] at hr
      exact absurd (hc.zero.symm.trans hr) (by simp)

/-- A loop that goes on for a round and longer: past its poll the host's answers are steady, or the poll
used something up. -/
theorem past_poll (hc : EndsLikePuts chars) {n : Nat} {a : Word} {s : State} (hw : s.mem.wf)
    (hn : 2 ≤ n) (h : Goes chars (65536 + n) a s) :
    ∃ k b t, scan chars k a s = .going b t ∧ t.mem.wf ∧ Goes chars n b t ∧
      (t.ports.Steady ∨ t.ports.budget < s.ports.budget) := by
  obtain ⟨d, hd⟩ : ∃ d, (Config.kbsr - a).toNat = d := ⟨_, rfl⟩
  have hlt : d < 65536 := hd ▸ (Config.kbsr - a).isLt
  have hsum : 65536 + n = d + ((65535 - d + n) + 1) := by omega
  rw [hsum] at h
  obtain ⟨b, t, h1, h2⟩ := goes_add.mp h
  obtain ⟨rfl, cs, rfl⟩ := scan_to_kbsr d hd h1
  obtain ⟨ha, bs, h3, h4⟩ := goes_past_kbsr hc (s := s.writeChars cs) hw h2
  obtain ⟨-, hk, hp⟩ := State.pollKeyboard_true (s := s.writeChars cs) hw ha
  have h5 := h4.shorter (m := n) (by omega)
  refine ⟨d + 1, Config.kbsr + 1, ((s.writeChars cs).afterRead Config.kbsr).writeChars bs, by rw [scan_add, h1]; exact h3,
    (s.writeChars cs).afterRead_wf Config.kbsr hw, h5, ?_⟩
  rw [State.writeChars_ports, hp]
  rcases budget_uses_up ha with hs | hb | hz
  · exact .inl (hs.charsWritten bs)
  · exact .inr hb
  · exfalso
    refine not_goes_of_kbdr hc ?_ (h5.shorter hn)
    rw [State.writeChars_word, hk, hz]
    rfl

/-- A loop that goes on for the rounds of the budget and two more goes on for ever. -/
theorem goes_forever_of_budget (hc : EndsLikePuts chars) (m : Nat) {a : Word} {s : State}
    (hw : s.mem.wf) (hm : s.ports.budget ≤ m) (h : Goes chars ((m + 2) * 65536) a s) (n : Nat) :
    Goes chars n a s := by
  induction m generalizing a s n with
  | zero =>
    obtain ⟨k, b, t, h1, h2, h3, h4⟩ := past_poll hc (n := 65536) hw (by omega) h
    rcases h4 with hs | hb
    · have := goes_add.mpr ⟨b, t, h1, goes_forever hc h2 hs h3 n⟩
      exact this.shorter (Nat.le_add_left n k)
    · omega
  | succ m ih =>
    have hsum : (m + 1 + 2) * 65536 = 65536 + (m + 2) * 65536 := by omega
    rw [hsum] at h
    obtain ⟨k, b, t, h1, h2, h3, h4⟩ := past_poll hc hw (by omega) h
    have hf : Goes chars n b t := by
      rcases h4 with hs | hb
      · exact goes_forever hc h2 hs (h3.shorter (by omega)) n
      · exact ih h2 (by omega) h3 n
    exact (goes_add.mpr ⟨b, t, h1, hf⟩).shorter (Nat.le_add_left n k)

/-- The rounds of `scanBound` are enough: a scan without an end in them has a loop without end. -/
theorem scanRounds_none_iff (hc : EndsLikePuts chars) {a : Word} {s : State} (hw : s.mem.wf) :
    scanRounds chars s.ports.scanBound a s = none ↔ ∀ n, Goes chars n a s := by
  rw [scanRounds_eq_none]
  exact ⟨fun h n => goes_forever_of_budget hc s.ports.budget hw (Nat.le_refl _) h n, fun h => h _⟩

end Sys2Proof.Machine
end

