-- ==== Sys2Proof/Laws/Step.lean ====
section
/-! SUPPORT. What a step can do: the inversion lemma that later proofs cite instead of unfolding the
cycle. -/

namespace Sys2Proof.Machine

/-- The cycle's turn in RUNNING with no stop request (`30_encoding.md` R80). -/
theorem State.turn_execute (s : State) (hr : s.run = .running) (hs : s.sampleStop.stopReq = false) :
    s.turn = .execute s.sampleStop.fetchWord s.sampleStop.afterFetch := by
  simp [State.turn, hr, State.runningTurn, hs]

/-- The cycle's turn in RUNNING with a stop request (`10_state.md` R40). -/
theorem State.turn_stop (s : State) (hr : s.run = .running) (hs : s.sampleStop.stopReq = true) :
    s.turn = .settled (.next (s.sampleStop.setRun .stopped)) := by
  simp [State.turn, hr, State.runningTurn, hs]

/-- Everything a step that goes on can do: a boot step, the stop, or one instruction at the state after
its fetch (`30_encoding.md` R80). -/
theorem step_cases {s t : State} (h : step s = .next t) :
    (s.run = .booting ∧ bootStep s = .next t) ∨
    (s.run = .running ∧ s.sampleStop.stopReq = true ∧ t = s.sampleStop.setRun .stopped) ∨
    (s.run = .running ∧ s.sampleStop.stopReq = false ∧
      exec (decodeWord s.sampleStop.fetchWord) s.sampleStop.afterFetch = .next t) := by
  unfold step at h
  cases hr : s.run with
  | booting => exact .inl ⟨rfl, by simpa [State.turn, hr] using h⟩
  | running =>
    cases hs : s.sampleStop.stopReq with
    | true =>
      rw [s.turn_stop hr hs] at h
      exact .inr (.inl ⟨rfl, rfl, (Host.Outcome.next.inj h).symm⟩)
    | false =>
      rw [s.turn_execute hr hs] at h
      exact .inr (.inr ⟨rfl, rfl, h⟩)
  | halted => simp [State.turn, hr] at h
  | faulted => simp [State.turn, hr] at h
  | stopped => simp [State.turn, hr] at h

@[simp] theorem State.afterFetch_pc (s : State) : s.afterFetch.pc = s.pc + 1 := rfl

@[simp] theorem State.afterFetch_reg (s : State) (q : Reg) : s.afterFetch.reg q = s.reg q := by
  simp [State.afterFetch]

@[simp] theorem State.afterFetch_cond (s : State) : s.afterFetch.cond = s.cond := by
  simp [State.afterFetch]

@[simp] theorem State.afterFetch_run (s : State) : s.afterFetch.run = s.run := by
  simp [State.afterFetch]

@[simp] theorem State.afterFetch_faultInfo (s : State) : s.afterFetch.faultInfo = s.faultInfo := by
  simp [State.afterFetch]

@[simp] theorem State.afterFetch_stopReq (s : State) : s.afterFetch.stopReq = s.stopReq := by
  simp [State.afterFetch]

/-- A fetch keeps the canonical form of memory. -/
theorem State.afterFetch_wf (s : State) (h : s.mem.wf) : s.afterFetch.mem.wf :=
  s.afterRead_wf s.pc h

/-- A fetch anywhere but at KBSR only moves `pc` (`30_encoding.md` R80). -/
theorem State.afterFetch_of_ne (s : State) (h : s.pc ≠ Config.kbsr) :
    s.afterFetch = s.setPc (s.pc + 1) := by
  simp [State.afterFetch, State.afterRead_of_ne s h]

end Sys2Proof.Machine
end

