-- ==== Sys2Proof/Laws/Trap.lean ====
section
/-! SUPPORT. What the services can do: when a string service ends and where, the strings that stay clear
of KBSR, the flags of a value, and TRAP's general spelling. -/

namespace Sys2Proof.Machine

/-! ## The two kinds of string -/

theorem putsChars_terminator {w : Word} (h : w = 0) : putsChars w = none := if_pos h

theorem putsChars_char {w : Word} (h : w ≠ 0) : putsChars w = some [lowByte w] := if_neg h

theorem putspChars_terminator {w : Word} (h : lowByte w = 0) : putspChars w = none := if_pos h

theorem putspChars_chars {w : Word} (h : lowByte w ≠ 0) : putspChars w = some (packedChars w) :=
  if_neg h

/-- The string of PUTS: no Word of a poll that finds input ends it, but the one that finds none does. -/
theorem putsChars_endsLikePuts : EndsLikePuts putsChars where
  zero := by decide
  ready := by decide
  char c hc := by rw [putsChars_char (zext8_ne_zero hc)]; simp

/-! ## From the loop to its service -/

variable {chars : Word → Option (List Byte)}

/-- A string service goes on exactly when its scan ends within the rounds. -/
theorem stringService_next_iff {s t : State} :
    stringService chars s = .next t ↔ scanRounds chars s.ports.scanBound (s.reg 0) s = some t := by
  unfold stringService
  cases scanRounds chars s.ports.scanBound (s.reg 0) s with
  | none => exact ⟨fun h => (by cases h), fun h => (by cases h)⟩
  | some u => exact ⟨fun h => congrArg some (Host.Outcome.next.inj h), fun h => congrArg _ (Option.some.inj h)⟩

/-- A string service is stuck exactly when its scan has no end within the rounds. -/
theorem stringService_stuck_iff {s : State} :
    stringService chars s = .fault .stringNeverEnds ↔
      scanRounds chars s.ports.scanBound (s.reg 0) s = none := by
  unfold stringService
  cases scanRounds chars s.ports.scanBound (s.reg 0) s with
  | none => exact ⟨fun _ => rfl, fun _ => rfl⟩
  | some u => exact ⟨fun h => (by cases h), fun h => (by cases h)⟩

/-- A string service goes on, touching KBSR, KBDR and the ports only, or is stuck. -/
theorem stringService_cases (chars : Word → Option (List Byte)) (s : State) :
    (∃ t, stringService chars s = .next t ∧ ScanFrame s t) ∨
      stringService chars s = .fault .stringNeverEnds := by
  cases h : scanRounds chars s.ports.scanBound (s.reg 0) s with
  | none => exact .inr (stringService_stuck_iff.mpr h)
  | some t =>
    have hf := scan_frame (chars := chars) (s.ports.scanBound * 65536) (s.reg 0) s
    rw [scanRounds_eq_some.mp h] at hf
    exact .inl ⟨t, stringService_next_iff.mpr h, hf⟩

/-- A string service that goes on leaves all but KBSR, KBDR and the ports alone. -/
theorem stringService_frame {s t : State} (h : stringService chars s = .next t) : ScanFrame s t := by
  rcases stringService_cases chars s with ⟨u, hu, f⟩ | hs
  · rw [h] at hu; cases hu; exact f
  · rw [h] at hs; cases hs

/-- A loop that ends within the rounds gives the service's next state. -/
theorem stringService_of_ended {n : Nat} {s t : State} (hn : n ≤ s.ports.scanBound * 65536)
    (h : scan chars n (s.reg 0) s = .ended t) : stringService chars s = .next t := by
  rw [stringService_next_iff, scanRounds_eq_some]
  obtain ⟨k, hk⟩ := Nat.exists_eq_add_of_le hn
  rw [hk, scan_add, h]
  rfl

/-- A loop that goes on for as many Words as asked has not ended. -/
theorem not_goes_of_ended {n : Nat} {a : Word} {s t : State} (h : scan chars n a s = .ended t) :
    ¬ Goes chars n a s := by
  rintro ⟨b, u, hg⟩
  rw [h] at hg
  cases hg

/-- PUTS goes on exactly when the loop of its rule ends, and as it ends (`43_trap.md` R196). -/
theorem putsService_next_iff {s t : State} (hw : s.mem.wf) :
    putsService s = .next t ↔ ∃ n, scan putsChars n (s.reg 0) s = .ended t := by
  unfold putsService
  constructor
  · intro h
    exact ⟨_, scanRounds_eq_some.mp (stringService_next_iff.mp h)⟩
  · rintro ⟨n, h⟩
    rcases stringService_cases putsChars s with ⟨u, hu, -⟩ | hs
    · have := scanRounds_eq_some.mp (stringService_next_iff.mp hu)
      rw [hu, scan_ended_unique h this]
    · have hg := (scanRounds_none_iff putsChars_endsLikePuts hw).mp (stringService_stuck_iff.mp hs) n
      exact absurd hg (not_goes_of_ended h)

/-- PUTS is stuck exactly when the loop of its rule never ends (`43_trap.md` R196). -/
theorem putsService_stuck_iff {s : State} (hw : s.mem.wf) :
    putsService s = .fault .stringNeverEnds ↔ ∀ n, Goes putsChars n (s.reg 0) s :=
  stringService_stuck_iff.trans (scanRounds_none_iff putsChars_endsLikePuts hw)

/-! ## The end of every loop of PUTSP -/

/-- The loop of PUTSP ends at KBSR at the latest: there it reads 0x8000 or 0x0000 (`43_trap.md` R199,
`20_memory.md` R54). -/
theorem putspScan_ends (n : Nat) (a : Word) (s : State) (hw : s.mem.wf)
    (hn : (Config.kbsr - a).toNat = n) : ∃ t, scan putspChars (n + 1) a s = .ended t := by
  induction n generalizing a s with
  | zero =>
    rw [eq_of_distance_zero _ _ hn]
    refine ⟨_, scan_end 0 (putspChars_terminator ?_)⟩
    rw [State.memRead_kbsr s hw]
    cases s.ports.pollAnswer <;> decide
  | succ n ih =>
    cases hr : putspChars (s.memRead a) with
    | none => exact ⟨_, scan_end _ hr⟩
    | some bs =>
      rw [scan_pass _ hr]
      exact ih (a + 1) _ (s.afterRead_wf a hw) (distance_step _ _ _ hn)

theorem Ports.two_le_scanBound (p : Ports) : 2 ≤ p.scanBound := Nat.le_add_left _ _

/-- As many Words as memory has are within the rounds of a scan. -/
theorem Ports.memory_le_scanBound (p : Ports) : 65536 ≤ p.scanBound * 65536 := by
  have := p.two_le_scanBound
  omega

/-- PUTSP goes on from every state, and as the loop of its rule ends (`43_trap.md` R199). -/
theorem putspService_next (s : State) (hw : s.mem.wf) :
    ∃ t, putspService s = .next t ∧ scan putspChars 65536 (s.reg 0) s = .ended t := by
  obtain ⟨t, h⟩ := putspScan_ends _ (s.reg 0) s hw rfl
  have hlt : (Config.kbsr - s.reg 0).toNat < 65536 := BitVec.isLt _
  have h' : scan putspChars 65536 (s.reg 0) s = .ended t := by
    obtain ⟨k, hk⟩ := Nat.exists_eq_add_of_le (Nat.succ_le_of_lt hlt)
    rw [hk, scan_add]
    show (scan putspChars ((Config.kbsr - s.reg 0).toNat + 1) (s.reg 0) s).resume putspChars k = _
    rw [h]
    rfl
  exact ⟨t, stringService_of_ended s.ports.memory_le_scanBound h', h'⟩

/-! ## The loops of the rules, and strings clear of KBSR -/

/-- The loop of PUTS as its rule has it is the model's scan. -/
theorem putsLoop_iff {n : Nat} {a : Word} {s t : State} :
    PutsLoop n a s t ↔ scan putsChars (n + 1) a s = .ended t ∧ Goes putsChars n a s := by
  constructor
  · intro h
    induction h with
    | done h => exact ⟨scan_end _ (putsChars_terminator h), _, _, rfl⟩
    | pass h _ ih =>
      obtain ⟨h1, b, u, h2⟩ := ih
      exact ⟨by rw [scan_pass _ (putsChars_char h)]; exact h1,
        b, u, by rw [scan_pass _ (putsChars_char h)]; exact h2⟩
  · rintro ⟨h, hg⟩
    induction n generalizing a s with
    | zero =>
      by_cases hr : s.memRead a = 0
      · rw [scan_end _ (putsChars_terminator hr)] at h
        cases h
        exact .done hr
      · rw [scan_pass _ (putsChars_char hr)] at h
        cases h
    | succ n ih =>
      obtain ⟨b, u, hg⟩ := hg
      by_cases hr : s.memRead a = 0
      · rw [scan_end _ (putsChars_terminator hr)] at hg
        cases hg
      · rw [scan_pass _ (putsChars_char hr)] at h hg
        exact .pass hr (ih h ⟨b, u, hg⟩)

/-- Where the model's scan ends, the loop of PUTS as its rule has it ends too. -/
theorem putsLoop_of_ended {n : Nat} {a : Word} {s t : State} (h : scan putsChars n a s = .ended t) :
    ∃ m, PutsLoop m a s t := by
  induction n generalizing a s with
  | zero => cases h
  | succ n ih =>
    by_cases hr : s.memRead a = 0
    · rw [scan_end _ (putsChars_terminator hr)] at h
      cases h
      exact ⟨0, .done hr⟩
    · rw [scan_pass _ (putsChars_char hr)] at h
      obtain ⟨m, hm⟩ := ih h
      exact ⟨m + 1, .pass hr hm⟩

/-- PUTS is stuck exactly when the loop as its rule has it comes to no end (`43_trap.md` R196). -/
theorem putsService_stuck_iff_loop {s : State} (hw : s.mem.wf) :
    putsService s = .fault .stringNeverEnds ↔ ∀ n t, ¬ PutsLoop n (s.reg 0) s t := by
  rw [putsService_stuck_iff hw]
  constructor
  · exact fun h n t k => not_goes_of_ended (putsLoop_iff.mp k).1 (h (n + 1))
  · intro h n
    cases hs : scan putsChars n (s.reg 0) s with
    | going b t => exact ⟨b, t, hs⟩
    | ended t =>
      obtain ⟨m, hm⟩ := putsLoop_of_ended hs
      exact absurd hm (h m t)

/-- A loop of PUTSP as its rule has it ends as the model's scan does. -/
theorem putspLoop_scan {n : Nat} {a : Word} {s t : State} (h : PutspLoop n a s t) :
    scan putspChars (n + 1) a s = .ended t := by
  induction h with
  | done h => exact scan_end _ (putspChars_terminator h)
  | pass h _ ih => rw [scan_pass _ (putspChars_chars h)]; exact ih

/-- The scan of PUTS over a string writes its low bytes and ends (`43_trap.md` R196). -/
theorem putsScan_string (ws : List Word) {a : Word} {s : State} (h : PutsString s a ws) :
    scan putsChars (ws.length + 1) a s = .ended (s.writeChars (ws.map lowByte)) := by
  suffices ∀ bs : List Byte, scan putsChars (ws.length + 1) a (s.writeChars bs) =
      .ended (s.writeChars (bs ++ ws.map lowByte)) by
    have := this []
    simpa [State.writeChars, Ports.charsWritten, State.setPorts] using this
  induction ws generalizing a with
  | nil =>
    intro bs
    obtain ⟨ha, hz⟩ := h
    have hr : (s.writeChars bs).memRead a = 0 := by rw [State.memRead_of_ne _ ha]; exact hz
    rw [List.length_nil, scan_end _ (putsChars_terminator hr), State.afterRead_of_ne _ ha]
    simp
  | cons w ws ih =>
    intro bs
    obtain ⟨ha, hw, hn, ht⟩ := h
    have hr : (s.writeChars bs).memRead a = w := by rw [State.memRead_of_ne _ ha]; exact hw
    have hc : putsChars ((s.writeChars bs).memRead a) = some [lowByte w] := by
      rw [hr]; exact putsChars_char hn
    have hj : (s.writeChars bs).writeChars [lowByte w] = s.writeChars (bs ++ [lowByte w]) := by
      simp only [State.writeChars_eq, State.setPorts_ports, Ports.charsWritten_append]
      rfl
    rw [List.length_cons, scan_pass _ hc, State.afterRead_of_ne _ ha, hj, ih ht]
    simp

/-- The scan of PUTSP over a packed string writes its bytes and ends (`43_trap.md` R199). -/
theorem putspScan_string (ws : List Word) {a : Word} {s : State} (h : PutspString s a ws) :
    scan putspChars (ws.length + 1) a s = .ended (s.writeChars (ws.flatMap packedChars)) := by
  suffices ∀ bs : List Byte, scan putspChars (ws.length + 1) a (s.writeChars bs) =
      .ended (s.writeChars (bs ++ ws.flatMap packedChars)) by
    have := this []
    simpa [State.writeChars, Ports.charsWritten, State.setPorts] using this
  induction ws generalizing a with
  | nil =>
    intro bs
    obtain ⟨ha, hz⟩ := h
    have hr : lowByte ((s.writeChars bs).memRead a) = 0 := by
      rw [State.memRead_of_ne _ ha]; exact hz
    rw [List.length_nil, scan_end _ (putspChars_terminator hr), State.afterRead_of_ne _ ha]
    simp
  | cons w ws ih =>
    intro bs
    obtain ⟨ha, hw, hn, ht⟩ := h
    have hr : (s.writeChars bs).memRead a = w := by rw [State.memRead_of_ne _ ha]; exact hw
    have hc : putspChars ((s.writeChars bs).memRead a) = some (packedChars w) := by
      rw [hr]; exact putspChars_chars hn
    have hj : (s.writeChars bs).writeChars (packedChars w) = s.writeChars (bs ++ packedChars w) := by
      simp only [State.writeChars_eq, State.setPorts_ports, Ports.charsWritten_append]
      rfl
    rw [List.length_cons, scan_pass _ hc, State.afterRead_of_ne _ ha, hj, ih ht]
    simp

/-- A string clear of KBSR ends before KBSR, so it has fewer Words than memory. -/
theorem PutsString.length_lt {s : State} : ∀ {ws : List Word} {a : Word}, PutsString s a ws →
    ws.length < (Config.kbsr - a).toNat
  | [], a, h => by
    obtain ⟨n, hn⟩ := distance_pos Config.kbsr a h.1
    rw [hn]
    exact Nat.succ_pos n
  | w :: ws, a, h => by
    obtain ⟨n, hn⟩ := distance_pos Config.kbsr a h.1
    have := PutsString.length_lt h.2.2.2
    rw [distance_step _ _ _ hn] at this
    rw [hn]
    exact Nat.succ_lt_succ this

/-- A packed string clear of KBSR ends before KBSR, so it has fewer Words than memory. -/
theorem PutspString.length_lt {s : State} : ∀ {ws : List Word} {a : Word}, PutspString s a ws →
    ws.length < (Config.kbsr - a).toNat
  | [], a, h => by
    obtain ⟨n, hn⟩ := distance_pos Config.kbsr a h.1
    rw [hn]
    exact Nat.succ_pos n
  | w :: ws, a, h => by
    obtain ⟨n, hn⟩ := distance_pos Config.kbsr a h.1
    have := PutspString.length_lt h.2.2.2
    rw [distance_step _ _ _ hn] at this
    rw [hn]
    exact Nat.succ_lt_succ this

/-- PUTS over a string at R0 clear of KBSR (`43_trap.md` R196). -/
theorem putsService_string {s : State} {ws : List Word} (h : PutsString s (s.reg 0) ws) :
    putsService s = .next (s.writeChars (ws.map lowByte)) := by
  refine stringService_of_ended (Nat.le_trans ?_ s.ports.memory_le_scanBound) (putsScan_string ws h)
  have h1 := h.length_lt
  have h2 := (Config.kbsr - s.reg 0).isLt
  omega

/-- PUTSP over a packed string at R0 clear of KBSR (`43_trap.md` R199). -/
theorem putspService_string {s : State} {ws : List Word} (h : PutspString s (s.reg 0) ws) :
    putspService s = .next (s.writeChars (ws.flatMap packedChars)) := by
  refine stringService_of_ended (Nat.le_trans ?_ s.ports.memory_le_scanBound) (putspScan_string ws h)
  have h1 := h.length_lt
  have h2 := (Config.kbsr - s.reg 0).isLt
  omega

/-! ## The flags of a value -/

/-- SetCC's value is the sign of the number (`10_state.md` R27). -/
theorem isCondOf_classify (v : Word) : IsCondOf v (classify v) := by
  unfold IsCondOf classify
  have h15 : v.getLsbD 15 = v.msb := by simp [BitVec.msb_eq_getLsbD_last]
  have h0 : v.toInt = 0 ↔ v = 0 :=
    ⟨fun h => BitVec.eq_of_toInt_eq (by simpa using h), fun h => by rw [h]; rfl⟩
  have hneg : v.toInt < 0 ↔ v.msb = true := by simp [BitVec.msb_eq_toInt]
  by_cases hz : v = 0
  · rw [hz]; decide
  · have hne : v.toInt ≠ 0 := fun h => hz (h0.mp h)
    rw [if_neg hz, h15]
    cases hm : v.msb
    · have : ¬ v.toInt < 0 := by simp [hneg, hm]
      simp; omega
    · have : v.toInt < 0 := hneg.mpr hm
      simp; omega

/-! ## TRAP's general spelling -/

/-- Running an instruction is running the row its Word decodes to (`43_trap.md` R190). -/
theorem exec_resolve (i : Instr) (s : State) : exec i s = exec i.resolve s := by
  cases i with
  | trap code =>
    show execTrap code s = exec (decodeTrap code) s
    unfold execTrap decodeTrap
    repeat' split
    all_goals rfl
  | _ => rfl

end Sys2Proof.Machine
end

