-- ==== Sys2Proof/Tests/Slice0.lean ====
section
/-! SUPPORT. The model's own tests. Expected values are those of `95_test_vectors.md` (the part is named
at each test) or of the rule cited; then one witness for every statement that has hypotheses. -/

namespace Sys2Proof.Tests

open Sys2Proof.Machine

/-! ## Helpers -/

/-- The state of the vectors: the Word `w` at `a`, `pc` there, RUNNING, all else as after reset. -/
def vec (a w : Word) : State := ({ State.reset with pc := a }).placeForFetch w

/-- A state with a Word stored. -/
def withWord (s : State) (a v : Word) : State := s.memWrite a v

/-- A state whose host has a script: answers of `PollInput`, characters of `ReadChar`, then the end. -/
def withHost (s : State) (polls : List Bool) (keys : List Byte) : State :=
  s.setPorts { s.ports with polls := polls, keys := keys, keysEnded := true }

/-- One step, as a state when it goes on. -/
def after (s : State) : Option State :=
  match step s with
  | .next t => some t
  | .fault _ => none
  | .refused _ => none

/-- One step seen through a register, the condition code and `pc`. -/
def seen (s : State) (r : Reg) : Option (Word × Cond × Word) :=
  (after s).map fun t => (t.reg r, t.cond, t.pc)

/-- One step seen through a Word of memory. -/
def seenWord (s : State) (a : Word) : Option Word := (after s).map fun t => t.word a

/-- One step seen through the port transactions. -/
def seenPorts (s : State) : Option (List PortEvent) := (after s).map fun t => t.ports.trace

/-! ## WellFormed: the one check, with the ill-formed terms it refuses -/

theorem test_wellFormed_refuses_a_service_code_as_unknown :
    (Instr.trapUnknown 0x20).wellFormed = false ∧ (Instr.trapUnknown 0x25).wellFormed = false := by
  decide

theorem test_wellFormed_takes_the_codes_beside_the_services :
    (Instr.trapUnknown 0x1F).wellFormed = true ∧ (Instr.trapUnknown 0x26).wellFormed = true := by
  decide

/-! ## Decoding: every constructor's Word written out from `30_encoding.md` R85 and R88 -/

theorem test_decode_add : decodeWord 0b0001_000_001_0_00_010 = .addReg 0 1 2 ∧
    decodeWord 0b0001_011_101_1_10110 = .addImm 3 5 0b10110 := by decide

theorem test_decode_and : decodeWord 0b0101_010_011_0_11_100 = .andReg 2 3 4 ∧
    decodeWord 0b0101_001_110_1_10000 = .andImm 1 6 0b10000 := by decide

theorem test_decode_not : decodeWord 0b1001_011_010_111111 = .notReg 3 2 ∧
    decodeWord 0b1001_011_010_000000 = .notReg 3 2 := by decide

theorem test_decode_br : decodeWord 0b0000_010_111111011 = .br 0b010 0b111111011 := by decide

theorem test_decode_jmp : decodeWord 0b1100_000_111_000000 = .jmp 7 ∧
    decodeWord 0b1100_111_011_111111 = .jmp 3 := by decide

theorem test_decode_jsr : decodeWord 0b0100_1_00000001111 = .jsr 15 ∧
    decodeWord 0b0100_0_00_011_000000 = .jsrr 3 := by decide

theorem test_decode_loads : decodeWord 0b0010_010_000000100 = .ld 2 4 ∧
    decodeWord 0b1010_011_000000001 = .ldi 3 1 ∧ decodeWord 0b0110_101_100_111111 = .ldr 5 4 0b111111 ∧
    decodeWord 0b1110_000_000000010 = .lea 0 2 := by decide

theorem test_decode_stores : decodeWord 0b0011_001_000010000 = .st 1 16 ∧
    decodeWord 0b1011_110_000000001 = .sti 6 1 ∧
    decodeWord 0b0111_011_010_110000 = .str 3 2 0b110000 := by decide

theorem test_decode_traps : decodeWord 0b1111_0000_00100000 = .getc ∧
    decodeWord 0b1111_0000_00100001 = .out ∧ decodeWord 0b1111_0000_00100010 = .puts ∧
    decodeWord 0b1111_0000_00100011 = .inTrap ∧ decodeWord 0b1111_0000_00100100 = .putsp ∧
    decodeWord 0b1111_1111_00100101 = .halt ∧ decodeWord 0b1111_0000_00100110 = .trapUnknown 0x26 := by
  decide

theorem test_decode_reserved : decodeWord 0b1000_000000000000 = .reserved8 0 ∧
    decodeWord 0b1101_111111111111 = .reservedD 0xFFF := by decide

theorem test_encode_trap_in_its_general_spelling : encode (.trap 0x21) = 0xF021 ∧
    decodeWord (encode (.trap 0x21)) = .out := by decide

theorem test_encode_canonical_bits : encode (.notReg 3 2) = 0x96BF ∧ encode (.jmp 7) = 0xC1C0 ∧
    encode .halt = 0xF025 := by decide

theorem test_decodeTableWord : decodeTableWord 16 0x1042 = some (.addReg 0 1 2) ∧
    decodeTableWord 32 0x1042 = none := by decide

theorem test_decodeBytes_is_total : decodeBytes [0xF0, 0x25, 0x00] = .ok (.halt, [0x00]) ∧
    decodeBytes [0xF0] = .error .truncated ∧ decodeBytes [] = .error .truncated := by
  refine ⟨?_, rfl, rfl⟩
  rfl

/-! ## Extension and flags (V1, V2) -/

theorem test_sext : sext 0b10000#5 = 0xFFF0 ∧ sext 0b011111#6 = 0x001F ∧ sext 0b100000000#9 = 0xFF00 ∧
    sext 0b01111111111#11 = 0x03FF := by decide

theorem test_classify : classify 0x0000 = .zero ∧ classify 0x7FFF = .positive ∧
    classify 0x8000 = .negative ∧ classify 0xFFFF = .negative := by decide

/-! ## Operate family (V3) -/

theorem test_add_signed_overflow_wraps :
    seen (((vec 0x3000 0x1042).setReg 1 0x7FFF).setReg 2 0x0001) 0 = some (0x8000, .negative, 0x3001) := by
  decide

theorem test_add_same_register_doubles :
    seen ((vec 0x3000 0x1241).setReg 1 0x4000) 1 = some (0x8000, .negative, 0x3001) := by decide

theorem test_add_most_negative_imm :
    seen ((vec 0x3000 0x1070).setReg 1 0x0010) 0 = some (0x0000, .zero, 0x3001) := by decide

theorem test_add_minus_one :
    seen ((vec 0x3000 0x107F).setReg 1 0x0005) 0 = some (0x0004, .positive, 0x3001) := by decide

theorem test_and_register :
    seen (((vec 0x3000 0x54C4).setReg 3 0x00FF).setReg 4 0x0F0F) 2 = some (0x000F, .positive, 0x3001) := by
  decide

theorem test_and_imm_keeps_high_bits :
    seen ((vec 0x3000 0x5270).setReg 1 0x8F3C) 1 = some (0x8F30, .negative, 0x3001) := by decide

theorem test_not_own_register :
    seen ((vec 0x3000 0x96FF).setReg 3 0x00FF) 3 = some (0xFF00, .negative, 0x3001) := by decide

theorem test_not_noncanonical :
    seen ((vec 0x3000 0x9680).setReg 2 0x1234) 3 = some (0xEDCB, .negative, 0x3001) := by decide

/-! ## Control transfer (V4, V5) -/

theorem test_br_taken_on_negative_only :
    seen ((vec 0x3000 0x0805).setCond .negative) 0 = some (0, .negative, 0x3006) ∧
    seen (vec 0x3000 0x0805) 0 = some (0, .zero, 0x3001) := by decide

theorem test_br_wraps : seen (vec 0x0000 0x0FFE) 0 = some (0, .zero, 0xFFFF) := by decide

theorem test_jmp_ignores_other_bits :
    seen ((vec 0x3000 0xCEFF).setReg 3 0x4000) 7 = some (0x0000, .zero, 0x4000) := by decide

theorem test_jsr_links : seen (vec 0x3000 0x4C00) 7 = some (0x3001, .zero, 0x2C01) := by decide

theorem test_jsrr : seen ((vec 0x3000 0x40C0).setReg 3 0x4000) 7 = some (0x3001, .zero, 0x4000) := by
  decide

theorem test_jsrr_r7_goes_to_the_return_address :
    seen ((vec 0x3000 0x41C0).setReg 7 0x5000) 7 = some (0x3001, .zero, 0x3001) := by decide

/-! ## Loads, stores and LEA (V6) -/

theorem test_ld_wraps :
    seen (withWord (vec 0xFF80 0x20FF) 0x0080 0x0042) 0 = some (0x0042, .positive, 0xFF81) := by decide

theorem test_ld_kbsr_with_input :
    seen (withHost (vec 0xFD00 0x20FF) [true] [0x41]) 0 = some (0x8000, .negative, 0xFD01) ∧
    seenWord (withHost (vec 0xFD00 0x20FF) [true] [0x41]) 0xFE02 = some 0x0041 := by decide

theorem test_ldi_source_example :
    seen (withWord (withWord (vec 0x3000 0xA601) 0x3002 0x4000) 0x4000 0x0042) 3 =
      some (0x0042, .positive, 0x3001) := by decide

theorem test_ldi_of_kbdr_does_not_poll :
    seenPorts (withWord (withWord (vec 0x3000 0xA001) 0x3002 0xFE02) 0xFE02 0x0031) = some [] := by decide

theorem test_ldr_own_base :
    seen (withWord ((vec 0x3000 0x6240).setReg 1 0x5000) 0x5000 0x7777) 1 =
      some (0x7777, .positive, 0x3001) := by decide

theorem test_ldr_negative_offset :
    seen (withWord ((vec 0x3000 0x6060).setReg 1 0x4000) 0x3FE0 0x00BB) 0 =
      some (0x00BB, .positive, 0x3001) := by decide

theorem test_lea_sets_flags : seen (vec 0x8000 0xE000) 0 = some (0x8001, .negative, 0x8001) := by decide

theorem test_st : seenWord ((vec 0x3000 0x3210).setReg 1 0x1234) 0x3011 = some 0x1234 := by decide

theorem test_sti :
    seenWord (withWord ((vec 0x3000 0xBC01).setReg 6 0xBEEF) 0x3002 0x5000) 0x5000 = some 0xBEEF := by
  decide

theorem test_str_own_base : seenWord ((vec 0x3000 0x7480).setReg 2 0x4444) 0x4444 = some 0x4444 := by
  decide

/-! ## Fetch (V7) -/

theorem test_fetch_at_the_top : seen (vec 0xFFFF 0x1021) 0 = some (0x0001, .positive, 0x0000) := by
  decide

/-- The vector F3: a fetch from KBSR with input pending gets the reserved Word 0x8000. -/
theorem test_fetch_from_kbsr_faults :
    (after (withHost ({ State.reset with pc := 0xFE00 }.setRun .running) [true] [0x41])).map
      (fun t => (t.run, t.faultInfo, t.pc, t.word 0xFE02)) =
    some (.faulted, some ⟨.illegalOpcode, 0x8, 0x8000, 0xFE00⟩, 0xFE01, 0x0041) := by decide

theorem test_reserved8_records :
    (after (vec 0x3000 0x8000)).map (fun t => (t.run, t.faultInfo, t.pc)) =
      some (.faulted, some ⟨.illegalOpcode, 0x8, 0x8000, 0x3000⟩, 0x3001) := by decide

theorem test_reservedD_records :
    (after (vec 0x3000 0xDFFF)).map (fun t => (t.run, t.faultInfo, t.pc)) =
      some (.faulted, some ⟨.illegalOpcode, 0xD, 0xDFFF, 0x3000⟩, 0x3001) := by decide

/-! ## Traps (V8) -/

theorem test_getc_never_negative :
    seen (withHost (vec 0x3000 0xF020) [] [0xFF]) 0 = some (0x00FF, .positive, 0x3001) := by decide

theorem test_getc_waits_at_the_end : step (withHost (vec 0x3000 0xF020) [] []) =
    .fault .inputNeverComes := by rfl

theorem test_out_low_byte :
    seenPorts ((vec 0x3000 0xF021).setReg 0 0x1241) = some [.writeChar 0x41] := by decide

theorem test_puts_zero_low_byte_is_no_end :
    seenPorts (withWord (withWord (withWord ((vec 0x3000 0xF022).setReg 0 0x4000) 0x4000 0x0048)
      0x4001 0x0100) 0x4002 0x0149) = some [.writeChar 0x48, .writeChar 0x00, .writeChar 0x49] := by
  decide

theorem test_puts_wraps :
    seenPorts (withWord (withWord ((vec 0x3000 0xF022).setReg 0 0xFFFF) 0xFFFF 0x0041) 0x0000 0x0042) =
      some [.writeChar 0x41, .writeChar 0x42] := by decide

theorem test_in_prompts_first :
    seenPorts (withHost (vec 0x3000 0xF023) [] [0x79]) =
      some (Config.inPrompt.map .writeChar ++ [.readChar 0x79] ++ [.writeChar 0x79]) := by rfl

theorem test_putsp_ends_at_a_zero_low_byte :
    seenPorts (withWord (withWord ((vec 0x3000 0xF024).setReg 0 0x4000) 0x4000 0x6548) 0x4001 0x4100) =
      some [.writeChar 0x48, .writeChar 0x65] := by decide

theorem test_putsp_goes_on_after_one_byte :
    seenPorts (withWord (withWord ((vec 0x3000 0xF024).setReg 0 0x4000) 0x4000 0x0041) 0x4001 0x4342) =
      some [.writeChar 0x41, .writeChar 0x42, .writeChar 0x43] := by decide

theorem test_halt :
    (after (vec 0x3000 0xF025)).map (fun t => (t.run, t.reg 7, t.pc, t.diag, t.output)) =
      some (.halted, 0x3001, 0x3001, [.haltNotice], []) := by decide

theorem test_unknown_trap :
    (after ((vec 0x3000 0xF026).setReg 7 0x1234)).map (fun t => (t.run, t.reg 7, t.diag)) =
      some (.running, 0x3001, [.unknownTrap 0x26]) := by decide

theorem test_trap_general_spelling :
    (match exec (.trap 0x21) (State.reset.setReg 0 0x48) with
      | .next t => t.output
      | _ => []) = [0x48] := by decide

/-! ## The cycle, boot (V7, V9) -/

theorem test_stop_beats_the_fetch :
    (after { vec 0x3000 0xF025 with stopReq := true }).map (fun t => (t.run, t.pc, t.ports.trace)) =
      some (.stopped, 0x3000, []) := by decide

theorem test_load_round_trip :
    (State.reset.loadImage [0x30, 0x00, 0x12, 0x34, 0x56, 0x78]).map (fun t => t.mem) =
      some [(0x3000, 0x1234), (0x3001, 0x5678)] := by decide

theorem test_load_clips :
    (State.reset.loadImage [0xFF, 0xFE, 0x11, 0x11, 0x22, 0x22, 0x33, 0x33]).map (fun t => t.mem) =
      some [(0xFFFE, 0x1111), (0xFFFF, 0x2222)] := by decide

theorem test_load_odd_byte_and_origin_only :
    (State.reset.loadImage [0x30, 0x00, 0x12, 0x34, 0x56]).map (fun t => t.mem) =
      some [(0x3000, 0x1234)] ∧
    (State.reset.loadImage [0x30, 0x00]).map (fun t => t.mem) = some [] ∧
    State.reset.loadImage [0x30] = none := by decide

theorem test_boot_starts_the_run : after State.reset = some (State.reset.setRun .running) := by decide

/-! ## Witnesses: states and operands that meet the hypotheses of the statements -/

/-- DecodeReversesEncode: a well-formed instruction of either kind, at the border of the check. -/
theorem witness_DecodeReversesEncode : (Instr.trapUnknown 0x26).wellFormed = true ∧
    (∀ code, Instr.trapUnknown 0x26 ≠ .trap code) ∧ (Instr.trap 0x20).wellFormed = true := by
  refine ⟨by decide, ?_, by decide⟩
  intro code h
  cases h

/-- DontCareBitsAreIgnored: two different Words that agree on the used bits. -/
theorem witness_DontCareBitsAreIgnored : (0x1042 : Word) ≠ 0x105A ∧
    (0x1042 : Word) &&& usedBits 0x1042 = 0x105A &&& usedBits 0x1042 := by decide

/-- EveryTableRowDecodes: a Word for each row, in the statement's order, the last two of row 0xF's
unknown codes at the borders of the services. -/
theorem witness_EveryTableRowDecodes :
    (0x1042 : Word) &&& 0xF020 = 0x1000 ∧ (0x107F : Word) &&& 0xF020 = 0x1020 ∧
    (0x54C4 : Word) &&& 0xF020 = 0x5000 ∧ (0x5270 : Word) &&& 0xF020 = 0x5020 ∧
    (0x96BF : Word) &&& 0xF000 = 0x9000 ∧ (0x0FFF : Word) &&& 0xF000 = 0x0000 ∧
    (0xC1C0 : Word) &&& 0xF000 = 0xC000 ∧ (0x4C00 : Word) &&& 0xF800 = 0x4800 ∧
    (0x41C0 : Word) &&& 0xF800 = 0x4000 ∧ (0x2404 : Word) &&& 0xF000 = 0x2000 ∧
    (0xA601 : Word) &&& 0xF000 = 0xA000 ∧ (0x6B3F : Word) &&& 0xF000 = 0x6000 ∧
    (0xE002 : Word) &&& 0xF000 = 0xE000 ∧ (0x3210 : Word) &&& 0xF000 = 0x3000 ∧
    (0xBC01 : Word) &&& 0xF000 = 0xB000 ∧ (0x76B0 : Word) &&& 0xF000 = 0x7000 ∧
    (0x8000 : Word) &&& 0xF000 = 0x8000 ∧ (0xDFFF : Word) &&& 0xF000 = 0xD000 ∧
    (0xFF20 : Word) &&& 0xF0FF = 0xF020 ∧ (0xF021 : Word) &&& 0xF0FF = 0xF021 ∧
    (0xF022 : Word) &&& 0xF0FF = 0xF022 ∧ (0xF023 : Word) &&& 0xF0FF = 0xF023 ∧
    (0xF024 : Word) &&& 0xF0FF = 0xF024 ∧ (0xFF25 : Word) &&& 0xF0FF = 0xF025 ∧
    ¬ (0x20 ≤ (0xF01F : Word).extractLsb' 0 8 ∧ (0xF01F : Word).extractLsb' 0 8 ≤ 0x25) ∧
    ¬ (0x20 ≤ (0xF026 : Word).extractLsb' 0 8 ∧ (0xF026 : Word).extractLsb' 0 8 ≤ 0x25) := by decide

/-- SetCCClassifiesTheRegister: two states and registers that hold the same value. -/
theorem witness_SetCCClassifiesTheRegister :
    (State.reset.setReg 1 0x8000).reg 1 = (State.reset.setReg 2 0x8000).reg 2 := by decide

/-- SignExtensionIsExact: a Word and a character whose bytes differ, as the rules number them. -/
theorem test_bytes : zext8 0xFF = 0x00FF ∧ lowByte 0x6548 = 0x48 ∧ highByte 0x6548 = 0x65 := by decide

/-- BrFollowsTheConditionMask: both clauses, for each of the three conditions. -/
theorem witness_BrFollowsTheConditionMask :
    (∀ c : Cond, condMeets c.bits c = true) ∧ ∀ c : Cond, condMeets (~~~ c.bits) c = false := by
  refine ⟨fun c => ?_, fun c => ?_⟩ <;> cases c <;> decide

/-- LdAndLdrLoadFromTheirAddress, LdiLoadsThroughThePointer, StiStoresThroughThePointer: addresses and
pointers on both sides of KBSR. -/
theorem witness_plain_and_polling_addresses :
    (vec 0xFD01 0).pc + sext 0xFF#9 = Config.kbsr ∧ (vec 0xFD00 0).pc + sext 0xFF#9 ≠ Config.kbsr ∧
    (withWord (vec 0x3000 0) 0x3001 0xFE00).word 0x3001 = Config.kbsr ∧
    (withWord (vec 0x3000 0) 0x3001 0xFE01).word 0x3001 ≠ Config.kbsr := by decide

/-- StAndStrStoreAtTheirAddress, MemWriteStoresEverywhere, CanonicalMemoryIsUnique,
KbsrReadPollsTheConsole, PutspAlwaysCompletes: a memory in canonical form that lists something. -/
theorem witness_canonical_memory :
    (withWord (withWord State.reset 0xFFFF 0x0041) 0xFE00 0x1234).mem.wf ∧
    (withWord (withWord State.reset 0xFFFF 0x0041) 0xFE00 0x1234).mem ≠ [] := by decide

/-- ScriptedInputArrivesInOrder: a script, with either answer. -/
theorem witness_ScriptedInputArrivesInOrder :
    let s := withHost State.reset [true, false] [0x61]
    s.mem.wf ∧ s.ports.polls = [true, false] ∧ s.ports.keys = [0x61] ∧
    (s.afterRead Config.kbsr).ports.polls = [false] := by decide

/-- OnlyTheKbsrReadHasSideEffects: the vector K6, two reads of KBSR that differ, the first of which finds
input in canonical memory, and an address that is not KBSR. -/
theorem witness_OnlyTheKbsrReadHasSideEffects :
    let s := withHost State.reset [true, false] [0x61]
    s.mem.wf ∧ s.ports.pollAnswer = true ∧ (s.afterRead Config.kbsr).word Config.kbdr = zext8 0x61 ∧
    s.memRead Config.kbsr = 0x8000 ∧ (s.afterRead Config.kbsr).memRead Config.kbsr = 0x0000 ∧
    Config.kbdr ≠ Config.kbsr := by decide

/-- StoreIsSeenByTheNextFetch: program P6's store, at the state after its fetch. -/
theorem witness_StoreIsSeenByTheNextFetch :
    let s := ((State.reset.setPc 0x3002).setRun .running).setReg 0 0xF025
    s.mem.wf ∧ s.run = .running ∧ s.pc ≠ Config.kbsr ∧
    (s.memWrite 0x3002 0xF025).sampleStop.stopReq = false := by decide

/-- GetcReadsOneCharacter, InPromptsReadsAndEchoes, TrapCompletes: a character to come, scripted and not;
InputEndLeavesGetcAndInWaiting: none. -/
theorem witness_character_to_come :
    (withHost State.reset [] [0x79]).ports.charToCome = true ∧
    State.reset.ports.charToCome = true ∧ (withHost State.reset [] []).ports.charToCome = false := by
  decide

/-- A state with the strings of the vectors at 0x4000. -/
def stringState : State :=
  withWord (withWord (State.reset.setReg 0 0x4000) 0x4000 0x6548) 0x4001 0x006C

/-- PutsWritesTheString, PutspWritesThePackedString, TrapCompletes: a string of two Words, and the empty
string. -/
theorem witness_strings : PutsString stringState 0x4000 [0x6548, 0x006C] ∧
    PutspString stringState 0x4000 [0x6548, 0x006C] ∧ PutsString stringState 0x5000 [] ∧
    stringState.reg 0 = 0x4000 ∧ stringState.mem.wf := by
  refine ⟨?_, ?_, ?_, by decide, by decide⟩
  · simp only [PutsString]; decide
  · simp only [PutspString]; decide
  · simp only [PutsString]; decide

/-- A state whose R0 points at KBSR, with one character pending there. -/
def kbsrString : State := (withHost State.reset [true] [0x61]).setReg 0 0xFE00

/-- PutsWritesTheString, PutspWritesThePackedString: a loop of PUTS that passes over KBSR, and one of
PUTSP that ends there. -/
theorem witness_loops : (∃ t, PutsLoop 1 (kbsrString.reg 0) kbsrString.saveReturn t) ∧
    (∃ t, PutspLoop 0 (kbsrString.reg 0) kbsrString.saveReturn t) ∧ kbsrString.mem.wf :=
  ⟨⟨_, .pass (by decide) (.done (by decide))⟩, ⟨_, .done (by decide)⟩, by decide⟩

/-- A memory of `n` Words that each hold 1. -/
@[irreducible] def ones (n : Nat) : Memory := (List.range n).map fun a => (a, 1)

theorem ones_wf {n : Nat} (hn : n ≤ 65536) : (ones n).wf := by
  unfold ones
  refine ⟨List.pairwise_map.mpr List.pairwise_lt_range, fun c hc => ?_⟩
  obtain ⟨a, ha, rfl⟩ := List.mem_map.mp hc
  exact ⟨Nat.lt_of_lt_of_le (List.mem_range.mp ha) hn, show (1 : Word) ≠ 0 by decide⟩

theorem ones_read {n a : Nat} (hn : n ≤ 65536) (ha : a < n) : (ones n).read a = 1 := by
  refine Memory.read_of_mem (ones_wf hn) ?_
  unfold ones
  exact List.mem_map.mpr ⟨a, List.mem_range.mpr ha, rfl⟩

/-- A state whose host finds a character other than 0x00 at every poll, for ever. -/
def endless (m : Memory) : State :=
  { State.reset with
    mem := m
    ports := { Ports.reset with freePolls := ⟨.endless, 0⟩, freeText := ⟨.endless, 0⟩ } }

theorem endless_stops {m : Memory} (hw : m.wf) (h : ∀ a < 65536, m.read a = 1) :
    (∀ n t, ¬ PutsLoop n ((endless m).reg 0) (endless m).saveReturn t) ∧
    exec .puts (endless m) = .fault .stringNeverEnds := by
  have hs : (endless m).saveReturn.ports.Steady := ⟨rfl, rfl, rfl, rfl, rfl⟩
  have hm : ∀ x, x ≠ Config.kbsr → putsChars ((endless m).saveReturn.word x) ≠ none := by
    intro x _
    have hx : (endless m).saveReturn.word x = 1 := h x.toNat x.isLt
    rw [hx]
    decide
  have hp := (putsService_stuck_iff (s := (endless m).saveReturn) hw).mpr fun n =>
    goes_forever_of_clear putsChars_endsLikePuts n _ hw hs hm
  have hl := (putsService_stuck_iff_loop (s := (endless m).saveReturn) hw).mp hp
  rw [State.saveReturn_reg_other (endless m) (by decide)] at hl
  exact ⟨hl, hp⟩

/-- PutsWritesTheString, InstructionsStopOnlyByWaiting: a loop of PUTS that never ends, and the stop. -/
theorem witness_puts_never_ends : (endless (ones 65536)).mem.wf ∧
    (∀ n t, ¬ PutsLoop n ((endless (ones 65536)).reg 0) (endless (ones 65536)).saveReturn t) ∧
    exec .puts (endless (ones 65536)) = .fault .stringNeverEnds :=
  ⟨ones_wf (Nat.le_refl _), endless_stops (ones_wf (Nat.le_refl _)) fun _ ha =>
    ones_read (Nat.le_refl _) ha⟩

/-- TrapCompletes: HasPutsString at code 0x22. -/
theorem witness_HasPutsString : HasPutsString stringState (stringState.reg 0) :=
  ⟨[0x6548, 0x006C], witness_strings.1⟩

/-- TrapRunsTheServiceOfItsCode, UnknownTrapIsLoggedAndSkipped: codes on both sides of the services. -/
theorem witness_unknown_codes : (0x1F : BitVec 8) < 0x20 ∧ (0x25 : BitVec 8) < 0x26 ∧
    (Instr.trapUnknown 0x1F).wellFormed = true := by decide

/-- FetchedReservedOpcodeEndsTheRun, StepRunsTheFetchedInstruction, RunEndsOnlyThreeWays: a running state
that fetches a reserved Word, and one that fetches HALT. -/
theorem witness_running_fetch :
    let s := vec 0x3000 0x8000
    let u := vec 0x3000 0xF025
    s.run = .running ∧ s.sampleStop.stopReq = false ∧
    s.sampleStop.fetchWord.extractLsb' 12 4 = 0x8 ∧ u.sampleStop.fetchWord.extractLsb' 12 4 ≠ 0x8 ∧
    decodeWord u.sampleStop.fetchWord = .halt ∧ (after u).isSome = true := by decide

/-- The rules over all instructions: an instruction of each kind answers a next state. -/
theorem witness_exec_answers :
    (∃ t, exec (.addReg 0 1 2) State.reset = .next t) ∧ (∃ t, exec (.br 7 0) State.reset = .next t) ∧
    (∃ t, exec (.st 0 0) State.reset = .next t) ∧ (∃ t, exec .out State.reset = .next t) ∧
    ∃ t, exec .halt State.reset = .next t :=
  ⟨⟨_, rfl⟩, ⟨_, rfl⟩, ⟨_, rfl⟩, ⟨_, rfl⟩, ⟨_, rfl⟩⟩

/-- InstructionsStopOnlyByWaiting: an instruction that stops. -/
theorem witness_InstructionsStopOnlyByWaiting : (withHost State.reset [] []).mem.wf ∧
    exec .getc (withHost State.reset [] []) = .fault .inputNeverComes := ⟨by decide, rfl⟩

/-- PlacedWordRunsNext: a Word, at an ordinary `pc` and at KBSR. -/
theorem witness_PlacedWordRunsNext : State.reset.mem.wf ∧ 0xF025 < 65536 ∧
    State.reset.fetchSlot = 0x3000 ∧ (State.reset.setPc 0xFE00).fetchSlot = 0x3000 := by decide

/-- StopRequestEndsTheRunBeforeTheFetch: a request sampled before and one that arrives here, over a level
that was clear; and a level that is clear, sampled before or arriving over one that was set. -/
theorem witness_StopRequestEndsTheRunBeforeTheFetch :
    let s := vec 0x3000 0xF025
    let t := { s with stopReq := true }
    s.run = .running ∧ (t.ports.stopLevels = [] ∧ t.stopReq = true) ∧
    ((s.setPorts { s.ports with stopLevels := [true, false] }).ports.stopLevels = true :: [false] ∧
      s.stopReq = false) ∧
    (s.ports.stopLevels = [] ∧ s.stopReq = false) ∧
    ((t.setPorts { t.ports with stopLevels := [false] }).ports.stopLevels = false :: [] ∧
      (t.setPorts { t.ports with stopLevels := [false] }).sampleStop.stopReq = false) := by decide

/-- TerminalStatesEnableNoStep: the three states. -/
theorem witness_TerminalStatesEnableNoStep :
    (State.reset.setRun .halted).run = .halted ∧ (State.reset.setRun .faulted).run = .faulted ∧
    (State.reset.setRun .stopped).run = .stopped := by decide

/-- StepKeepsInvariant, PortTraceOnlyGrows, BootExecutesNoInstruction: steps that go on, in boot and in
RUNNING. -/
theorem witness_steps : State.reset.run = .booting ∧ (after State.reset).isSome = true ∧
    (vec 0x3000 0x1021).run ≠ .booting ∧ (after (vec 0x3000 0x1021)).isSome = true := by decide

/-- StepKeepsInvariant: the reset state meets the invariant. -/
theorem witness_StepKeepsInvariant : State.reset.Inv where
  mem_wf := by decide
  fault_iff := by decide
  fault_genuine := fun _ h => nomatch h
  stop_requested := by decide
  halt_return := by decide
  halt_notice := by decide

/-- A state in boot whose next image has these bytes, and one more image after it. -/
def bootingWith (content : List Byte) : State :=
  State.reset.setPorts { State.reset.ports with images := [.bytes content, .bytes [0x30, 0x00]] }

/-- BootLoadsBigEndianWords, LoaderClipsAtTheTop: states in boot with the vector L1's image, with one
that reaches past the top (L2), and with one of an odd length; and what a boot step makes of the last
two. -/
theorem witness_BootLoadsBigEndianWords :
    (bootingWith [0x30, 0x00, 0x12, 0x34, 0x56, 0x78]).run = .booting ∧
    (bootingWith [0x30, 0x00, 0x12, 0x34, 0x56, 0x78]).mem.wf ∧
    (bootingWith [0xFF, 0xFE, 0x11, 0x11, 0x22, 0x22, 0x33, 0x33]).ports.images =
      .bytes (0xFF :: 0xFE :: (([(0x11, 0x11), (0x22, 0x22), (0x33, 0x33)].flatMap fun p => [p.1, p.2]) ++ []))
        :: [.bytes [0x30, 0x00]] ∧
    (bootingWith [0x30, 0x00, 0x12, 0x34, 0x56]).ports.images =
      .bytes (0x30 :: 0x00 :: (([(0x12, 0x34)].flatMap fun p => [p.1, p.2]) ++ [0x56]))
        :: [.bytes [0x30, 0x00]] ∧
    (after (bootingWith [0xFF, 0xFE, 0x11, 0x11, 0x22, 0x22, 0x33, 0x33])).map (fun t => (t.mem, t.run)) =
      some ([(0xFFFE, 0x1111), (0xFFFF, 0x2222)], .booting) ∧
    (after (bootingWith [0x30, 0x00, 0x12, 0x34, 0x56])).map (fun t => (t.mem, t.ports.images)) =
      some ([(0x3000, 0x1234)], [.bytes [0x30, 0x00]]) := by decide

/-- LoaderClipsAtTheTop: the vector L2, where a Word past the top is discarded. -/
theorem witness_LoaderClipsAtTheTop : State.reset.mem.wf ∧ 0xFFFE < 65536 ∧
    65535 - 0xFFFE < [(0x1111 : Word), 0x2222, 0x3333].length := by decide

/-- BootErrorsAndStart: the vectors L5 and L9, at the image that fails. -/
theorem witness_BootErrorsAndStart :
    let s := State.reset.setPorts { State.reset.ports with images := [.bytes [0x30], .unreadable] }
    s.run = .booting ∧ s.ports.images = [.bytes [0x30], .unreadable] ∧ [(0x30 : Byte)].length < 2 := by
  decide

end Sys2Proof.Tests
end

/-! Sign extension, zero extension and the two bytes of a Word, as numbers (`00_scope.md` R5, R6,
`20_memory.md` R60, R61). -/

namespace Sys2Proof.Machine

/-- The copied sign bit, bit by bit, for a field of any width. -/
theorem getLsbD_sext {n k : Nat} (f : BitVec n) (hk : k < 16) :
    (sext f).getLsbD k = if k < n then f.getLsbD k else f.getLsbD (n - 1) := by
  rw [sext, BitVec.getLsbD_signExtend, BitVec.msb_eq_getLsbD_last, decide_eq_true hk, Bool.true_and]

/-- R5's closed form. Both sides are the signed number `f - f[N-1] * 2^N` taken modulo 2^16, so the
width of the field does not matter. -/
theorem sext_eq_setWidth_sub {n : Nat} (f : BitVec n) :
    sext f = f.setWidth 16 - ((BitVec.ofBool (f.getLsbD (n - 1))).setWidth 16 <<< n) := by
  have hsext : sext f = BitVec.ofInt 16 f.toInt := rfl
  rw [hsext, BitVec.toInt_eq_msb_cond, ← BitVec.msb_eq_getLsbD_last]
  cases f.msb with
  | false => simp [BitVec.ofNat_toNat]
  | true =>
    have hsign : (BitVec.ofBool true).setWidth 16 <<< n = BitVec.ofNat 16 (2 ^ n) :=
      BitVec.eq_of_toNat_eq (by simp [Nat.shiftLeft_eq])
    rw [hsign, if_pos rfl, Int.sub_eq_add_neg, BitVec.ofInt_add, BitVec.ofInt_neg,
      BitVec.ofInt_natCast, BitVec.ofInt_natCast, BitVec.ofNat_toNat, BitVec.sub_eq_add_neg]

/-- A field no wider than a Word keeps its signed number. -/
theorem toInt_sext {n : Nat} (f : BitVec n) (hn : n ≤ 16) : (sext f).toInt = f.toInt :=
  BitVec.toInt_signExtend_of_le hn

theorem toNat_zext8 (c : Byte) : (zext8 c).toNat = c.toNat :=
  BitVec.toNat_setWidth_of_le (by decide)

theorem toNat_lowByte (w : Word) : (lowByte w).toNat = w.toNat % 256 := by
  simp [lowByte]

/-- The high byte's number needs no reduction modulo 256: a Word is below 2^16. -/
theorem toNat_highByte (w : Word) : (highByte w).toNat = w.toNat / 256 := by
  have hw : w.toNat < 65536 := w.isLt
  simp only [highByte, BitVec.extractLsb'_toNat, Nat.shiftRight_eq_div_pow]
  omega

/-- Settles O7: the sign-extension rules, which hold of every field no wider than a Word, at the four
widths the instruction set uses, and the rules on bytes. -/
theorem signExtensionIsExact : Obligations.SignExtensionIsExact := by
  refine ⟨?_, ?_, ?_, ?_, by decide, toNat_zext8, fun w => ⟨toNat_lowByte w, toNat_highByte w⟩⟩
  all_goals
    exact fun f => ⟨fun _ hk => getLsbD_sext f hk, sext_eq_setWidth_sub f, toInt_sext f (by decide)⟩

end Sys2Proof.Machine

/-! What every instruction keeps, and what it does with the condition code (`10_state.md` R22 to R29,
R38); boot's errors and the start of the run (`70_reset_and_hazards.md` R258). -/

namespace Sys2Proof.Machine

/-! ## SetCC -/

/-- Settles O8: SetCC stores `classify` of the register's value in `cond`. -/
theorem setCCClassifiesTheRegister : Obligations.SetCCClassifiesTheRegister :=
  ⟨fun _ _ => ⟨rfl, rfl⟩, fun _ _ _ _ hvalue => congrArg classify hvalue⟩

/-! ## Boot steps -/

theorem step_of_booting {s : State} (h : s.run = .booting) : step s = bootStep s := by
  simp only [step, State.turn, h]

theorem bootStep_no_image {s : State} (h : s.ports.images = []) :
    bootStep s = .next (s.setRun .running) := by
  simp only [bootStep, h]

theorem bootStep_unreadable {s : State} {later : List ImageFile}
    (h : s.ports.images = .unreadable :: later) : bootStep s = .fault .loadError := by
  simp only [bootStep, h]

/-- Fewer than two bytes hold no Word, so not even an origin. -/
theorem State.loadImage_short (s : State) {content : List Byte} (h : content.length < 2) :
    s.loadImage content = none := by
  match content, h with
  | [], _ => rfl
  | [_], _ => rfl

theorem bootStep_short {s : State} {content : List Byte} {later : List ImageFile}
    (h : s.ports.images = .bytes content :: later) (hshort : content.length < 2) :
    bootStep s = .fault .loadError := by
  simp only [bootStep, h, State.loadImage_short _ hshort]

/-- Settles O58: power-on's two answers, and a boot step's answer for each head of the image list. -/
theorem bootErrorsAndStart : Obligations.BootErrorsAndStart := by
  refine ⟨rfl, fun _ _ => ⟨_, rfl, rfl, rfl⟩, fun s hboot => ?_⟩
  rw [step_of_booting hboot]
  exact ⟨fun _ => bootStep_unreadable, fun _ _ => bootStep_short, bootStep_no_image⟩

/-! ## TRAP's general spelling: every table says of it what it says of the row of its code -/

theorem decodeTrap_ne_trap (code c : BitVec 8) : decodeTrap code ≠ .trap c := by
  unfold decodeTrap
  split_ifs <;> simp

theorem resolve_resolve (i : Instr) : i.resolve.resolve = i.resolve := by
  cases i with
  | trap code =>
    show (decodeTrap code).resolve = decodeTrap code
    unfold decodeTrap
    split_ifs <;> rfl
  | _ => rfl

theorem resolve_ne_br {i : Instr} (h : ∀ nzp off9, i ≠ .br nzp off9) (nzp : BitVec 3)
    (off9 : BitVec 9) : i.resolve ≠ .br nzp off9 := by
  cases i with
  | trap code =>
    show decodeTrap code ≠ .br nzp off9
    unfold decodeTrap
    split_ifs <;> simp
  | _ => exact h nzp off9

theorem flagReg_resolve (i : Instr) : flagReg i.resolve = flagReg i := by
  cases i with
  | trap code =>
    show flagReg (decodeTrap code) = flagReg (.trap code)
    unfold decodeTrap
    split_ifs <;> simp_all [flagReg]
  | _ => rfl

theorem writtenRegs_resolve (i : Instr) : writtenRegs i.resolve = writtenRegs i := by
  cases i with
  | trap code =>
    show writtenRegs (decodeTrap code) = writtenRegs (.trap code)
    unfold decodeTrap
    split_ifs <;> simp_all [writtenRegs]
  | _ => rfl

theorem movesPc_resolve (i : Instr) : movesPc i.resolve = movesPc i := by
  cases i with
  | trap code =>
    show movesPc (decodeTrap code) = false
    unfold decodeTrap
    split_ifs <;> rfl
  | _ => rfl

theorem writesConsole_resolve (i : Instr) : writesConsole i.resolve = writesConsole i := by
  simp only [writesConsole, resolve_resolve]

/-! ## The services that read a character -/

/-- GETC goes on exactly when a character is to come (`43_trap.md` R192). -/
theorem getcService_eq (s : State) : getcService s =
    if s.ports.charToCome then .next ((s.setPorts s.ports.charRead).charToR0 s.ports.nextChar)
    else .fault .inputNeverComes := by
  unfold getcService
  rw [State.readChar_eq]
  split_ifs <;> rfl

theorem getcService_next {s t : State} (h : getcService s = .next t) :
    t = (s.setPorts s.ports.charRead).charToR0 s.ports.nextChar := by
  rw [getcService_eq] at h
  split_ifs at h
  exact (Host.Outcome.next.inj h).symm

/-- The state of IN once its prompt is written and its character read and echoed (`43_trap.md` R197). -/
def State.promptReadEcho (s : State) : State :=
  let prompted := s.writeChars Config.inPrompt
  (prompted.setPorts prompted.ports.charRead).writeChar s.ports.nextChar

/-- IN goes on exactly when a character is to come (`43_trap.md` R197). -/
theorem inService_eq (s : State) : inService s =
    if s.ports.charToCome then .next (s.promptReadEcho.charToR0 s.ports.nextChar)
    else .fault .inputNeverComes := by
  unfold inService
  rw [State.readChar_eq, State.writeChars_ports, Ports.charsWritten_charToCome,
    Ports.charsWritten_nextChar]
  split_ifs <;> rfl

theorem inService_next {s t : State} (h : inService s = .next t) :
    t = s.promptReadEcho.charToR0 s.ports.nextChar := by
  rw [inService_eq] at h
  split_ifs at h
  exact (Host.Outcome.next.inj h).symm

/-! ## What an instruction keeps

The four tables bound what an instruction may change. Each operation on the state that a row of the
instruction may use stays within them, and so does one operation after another. -/

theorem mem_writtenRegs_of_flagReg {i : Instr} {r : Reg} (h : flagReg i = some r) :
    r ∈ writtenRegs i := by
  cases i with
  | trap code =>
    simp only [flagReg, writtenRegs] at h ⊢
    split_ifs at h ⊢ with hcode
    simp_all
  | _ => simp_all [flagReg, writtenRegs]

/-- From `s` to `t` nothing changes that the tables of the instruction do not list
(`10_state.md` R23, R24, R28, R38). -/
structure RowKeeps (i : Instr) (s t : State) : Prop where
  regs : KeepsRegsBut (writtenRegs i) s t
  pc : movesPc i = false → t.pc = s.pc
  cond : flagReg i = none → t.cond = s.cond
  output : writesConsole i = false → t.output = s.output

namespace RowKeeps

variable {i : Instr} {s t u : State}

theorem of_resolve (h : RowKeeps i.resolve s t) : RowKeeps i s t := by
  obtain ⟨hregs, hpc, hcond, hout⟩ := h
  simp only [writtenRegs_resolve, movesPc_resolve, flagReg_resolve, writesConsole_resolve]
    at hregs hpc hcond hout
  exact ⟨hregs, hpc, hcond, hout⟩

theorem trans (h : RowKeeps i s t) (k : RowKeeps i t u) : RowKeeps i s u where
  regs r hr := (k.regs r hr).trans (h.regs r hr)
  pc hi := (k.pc hi).trans (h.pc hi)
  cond hi := (k.cond hi).trans (h.cond hi)
  output hi := (k.output hi).trans (h.output hi)

theorem refl (s : State) : RowKeeps i s s :=
  ⟨fun _ _ => rfl, fun _ => rfl, fun _ => rfl, fun _ => rfl⟩

theorem writeResult {dr : Reg} (s : State) (v : Word) (h : flagReg i = some dr) :
    RowKeeps i s (s.writeResult dr v) where
  regs r hr := s.writeResult_reg_other v fun e => hr (e ▸ mem_writtenRegs_of_flagReg h)
  pc _ := rfl
  cond hn := by rw [h] at hn; cases hn
  output _ := rfl

theorem saveReturn (s : State) (h : 7 ∈ writtenRegs i) : RowKeeps i s s.saveReturn where
  regs _ hr := s.saveReturn_reg_other fun e => hr (e ▸ h)
  pc _ := rfl
  cond _ := rfl
  output _ := rfl

theorem setPc (s : State) (v : Word) (h : movesPc i = true) : RowKeeps i s (s.setPc v) where
  regs _ _ := rfl
  pc hn := by rw [h] at hn; cases hn
  cond _ := rfl
  output _ := rfl

theorem afterRead (s : State) (a : Word) : RowKeeps i s (s.afterRead a) where
  regs r _ := s.afterRead_reg a r
  pc _ := s.afterRead_pc a
  cond _ := s.afterRead_cond a
  output _ := (s.afterRead_output a).1

theorem memWrite (s : State) (a v : Word) : RowKeeps i s (s.memWrite a v) :=
  ⟨fun _ _ => rfl, fun _ => rfl, fun _ => rfl, fun _ => rfl⟩

theorem illegalOpcode (s : State) (ir : Word) : RowKeeps i s (s.illegalOpcode ir) :=
  ⟨fun _ _ => rfl, fun _ => rfl, fun _ => rfl, fun _ => rfl⟩

theorem setRun (s : State) (r : RunState) : RowKeeps i s (s.setRun r) :=
  ⟨fun _ _ => rfl, fun _ => rfl, fun _ => rfl, fun _ => rfl⟩

theorem emitDiag (s : State) (e : DiagEvent) : RowKeeps i s (s.emitDiag e) where
  regs _ _ := rfl
  pc _ := rfl
  cond _ := rfl
  output _ := by simp [State.output, State.emitDiag_eq, PortEvent.outputByte]

theorem charRead (s : State) : RowKeeps i s (s.setPorts s.ports.charRead) where
  regs _ _ := rfl
  pc _ := rfl
  cond _ := rfl
  output _ := by simp [State.output, PortEvent.outputByte]

theorem writeChars (s : State) (bs : List Byte) (h : writesConsole i = true) :
    RowKeeps i s (s.writeChars bs) where
  regs _ _ := rfl
  pc _ := rfl
  cond _ := rfl
  output hn := by rw [h] at hn; cases hn

theorem of_scanFrame (h : ScanFrame s t) (hi : writesConsole i = true) : RowKeeps i s t where
  regs _ _ := by rw [State.reg, State.reg, h.regs]
  pc _ := h.pc
  cond _ := h.cond
  output hn := by rw [hi] at hn; cases hn

theorem promptReadEcho (s : State) (h : writesConsole i = true) :
    RowKeeps i s s.promptReadEcho :=
  ((RowKeeps.writeChars s _ h).trans (.charRead _)).trans (.writeChars _ _ h)

end RowKeeps

/-- A row of the opcode map keeps what its tables do not list: its meaning is a sequence of operations
that each do. -/
theorem exec_row_keeps {i : Instr} {s t : State} (hrow : i.resolve = i) (h : exec i s = .next t) :
    RowKeeps i s t := by
  cases i with
  | addReg _ _ _ | addImm _ _ _ | andReg _ _ _ | andImm _ _ _ | notReg _ _ | lea _ _ =>
    obtain rfl := Host.Outcome.next.inj h
    exact .writeResult s _ rfl
  | ld _ _ | ldr _ _ _ =>
    obtain rfl := Host.Outcome.next.inj h
    exact .trans (.afterRead s _) (.writeResult _ _ rfl)
  | ldi _ _ =>
    obtain rfl := Host.Outcome.next.inj h
    exact .trans (.afterRead s _) (.trans (.afterRead _ _) (.writeResult _ _ rfl))
  | st _ _ | str _ _ _ =>
    obtain rfl := Host.Outcome.next.inj h
    exact .memWrite s _ _
  | sti _ _ =>
    obtain rfl := Host.Outcome.next.inj h
    exact .trans (.afterRead s _) (.memWrite _ _ _)
  | br nzp off9 =>
    obtain rfl := Host.Outcome.next.inj h
    split_ifs
    · exact .setPc s _ rfl
    · exact .refl s
  | jmp _ =>
    obtain rfl := Host.Outcome.next.inj h
    exact .setPc s _ rfl
  | jsr _ | jsrr _ =>
    obtain rfl := Host.Outcome.next.inj h
    exact .trans (.saveReturn s (by simp [writtenRegs])) (.setPc _ _ rfl)
  | reserved8 _ | reservedD _ =>
    obtain rfl := Host.Outcome.next.inj h
    exact .illegalOpcode s _
  | trap code => exact absurd hrow (decodeTrap_ne_trap code code)
  | getc =>
    obtain rfl := getcService_next h
    exact .trans (.saveReturn s (by simp [writtenRegs])) (.trans (.charRead _) (.writeResult _ _ rfl))
  | inTrap =>
    obtain rfl := inService_next h
    exact .trans (.saveReturn s (by simp [writtenRegs]))
      (.trans (.promptReadEcho _ rfl) (.writeResult _ _ rfl))
  | out =>
    obtain rfl := Host.Outcome.next.inj h
    exact .trans (.saveReturn s (by simp [writtenRegs])) (.writeChars _ _ rfl)
  | puts | putsp =>
    exact .trans (.saveReturn s (by simp [writtenRegs])) (.of_scanFrame (stringService_frame h) rfl)
  | halt =>
    obtain rfl := Host.Outcome.next.inj h
    exact .trans (.saveReturn s (by simp [writtenRegs])) (.trans (.emitDiag _ _) (.setRun _ _))
  | trapUnknown _ =>
    obtain rfl := Host.Outcome.next.inj h
    exact .trans (.saveReturn s (by simp [writtenRegs])) (.emitDiag _ _)

/-- Every instruction keeps what its tables do not list, TRAP in its general spelling too. -/
theorem exec_keeps {i : Instr} {s t : State} (h : exec i s = .next t) : RowKeeps i s t :=
  .of_resolve (exec_row_keeps (resolve_resolve i) (exec_resolve i s ▸ h))

/-- A row that sets flags ends by writing a result, and the flags with it. -/
theorem exec_row_of_flagReg {i : Instr} {r : Reg} {s t : State} (hrow : i.resolve = i)
    (hflag : flagReg i = some r) (h : exec i s = .next t) :
    ∃ (u : State) (v : Word), t = u.writeResult r v := by
  cases i with
  | addReg _ _ _ | addImm _ _ _ | andReg _ _ _ | andImm _ _ _ | notReg _ _ | lea _ _ | ld _ _
  | ldi _ _ | ldr _ _ _ =>
    cases hflag
    exact ⟨_, _, (Host.Outcome.next.inj h).symm⟩
  | getc =>
    cases hflag
    exact ⟨_, _, getcService_next h⟩
  | inTrap =>
    cases hflag
    exact ⟨_, _, inService_next h⟩
  | trap code => exact absurd hrow (decodeTrap_ne_trap code code)
  | _ => cases hflag

/-- Every instruction that sets flags ends by writing a result, and the flags with it. -/
theorem exec_of_flagReg {i : Instr} {r : Reg} {s t : State} (hflag : flagReg i = some r)
    (h : exec i s = .next t) : ∃ (u : State) (v : Word), t = u.writeResult r v :=
  exec_row_of_flagReg (resolve_resolve i) ((flagReg_resolve i).trans hflag) (exec_resolve i s ▸ h)

/-- Settles O40: a flag-setting instruction ends with SetCC on its result, and every other one keeps
`cond`. -/
theorem condIsWrittenByTheListedInstructions : Obligations.CondIsWrittenByTheListedInstructions := by
  refine fun i s t h => ⟨fun r hflag => ?_, (exec_keeps h).cond⟩
  obtain ⟨u, v, rfl⟩ := exec_of_flagReg hflag h
  rw [State.writeResult_reg_same, State.writeResult_cond]
  exact isCondOf_classify v

/-- Settles O41: a conjunct of what every instruction keeps. -/
theorem registersAreWrittenByTheListedInstructions :
    Obligations.RegistersAreWrittenByTheListedInstructions :=
  fun _ _ _ h => (exec_keeps h).regs

/-- Settles O43: a conjunct of what every instruction keeps. -/
theorem onlyControlTransferMovesPc : Obligations.OnlyControlTransferMovesPc :=
  fun _ _ _ h => (exec_keeps h).pc

/-- Settles O45: a conjunct of what every instruction keeps. -/
theorem onlyTheServicesWriteTheConsole : Obligations.OnlyTheServicesWriteTheConsole :=
  fun _ _ _ h => (exec_keeps h).output

/-! ## The condition code as an input -/

@[simp] theorem State.pollKeyboard_setCond (s : State) (c : Cond) :
    (s.setCond c).pollKeyboard = s.pollKeyboard.setCond c := by
  unfold State.pollKeyboard
  rw [State.setCond_ports]
  split_ifs <;> rfl

@[simp] theorem State.afterRead_setCond (s : State) (c : Cond) (a : Word) :
    (s.setCond c).afterRead a = (s.afterRead a).setCond c := by
  unfold State.afterRead
  split_ifs
  · exact s.pollKeyboard_setCond c
  · rfl

@[simp] theorem State.memRead_setCond (s : State) (c : Cond) (a : Word) :
    (s.setCond c).memRead a = s.memRead a := by
  simp [State.memRead]

/-- A flag-setting result overwrites the condition code. -/
@[simp] theorem State.writeResult_setCond (s : State) (c : Cond) (dr : Reg) (v : Word) :
    (s.setCond c).writeResult dr v = s.writeResult dr v := rfl

@[simp] theorem State.loadInto_setCond (s : State) (c : Cond) (dr : Reg) (ea : Word) :
    (s.setCond c).loadInto dr ea = s.loadInto dr ea := by
  simp [State.loadInto]

@[simp] theorem State.indirect9_setCond (s : State) (c : Cond) (off9 : BitVec 9) :
    (s.setCond c).indirect9 off9 = s.indirect9 off9 := s.memRead_setCond c _

@[simp] theorem State.afterPointer_setCond (s : State) (c : Cond) (off9 : BitVec 9) :
    (s.setCond c).afterPointer off9 = (s.afterPointer off9).setCond c := s.afterRead_setCond c _

/-- A string scan's standing with another condition code in its state. -/
def Scan.setCond (c : Cond) : Scan → Scan
  | .ended s => .ended (s.setCond c)
  | .going a s => .going a (s.setCond c)

theorem scan_setCond (chars : Word → Option (List Byte)) (c : Cond) (n : Nat) (a : Word) (s : State) :
    scan chars n a (s.setCond c) = (scan chars n a s).setCond c := by
  induction n generalizing a s with
  | zero => rfl
  | succ n ih =>
    have hread := s.memRead_setCond c a
    cases h : chars (s.memRead a) with
    | none => rw [scan_end n h, scan_end n (hread ▸ h), State.afterRead_setCond]; rfl
    | some bs =>
      rw [scan_pass n h, scan_pass n (hread ▸ h), State.afterRead_setCond]
      exact ih (a + 1) ((s.afterRead a).writeChars bs)

theorem stringService_setCond {chars : Word → Option (List Byte)} {s t : State} (c : Cond)
    (h : stringService chars s = .next t) :
    stringService chars (s.setCond c) = .next (t.setCond c) := by
  rw [stringService_next_iff, scanRounds_eq_some] at h ⊢
  exact (scan_setCond chars c _ _ s).trans (congrArg (Scan.setCond c) h)

/-- A row that sets flags does the same from any condition code. -/
theorem exec_row_setCond_of_flagReg {i : Instr} {r : Reg} (hrow : i.resolve = i)
    (hflag : flagReg i = some r) (s : State) (c : Cond) : exec i (s.setCond c) = exec i s := by
  cases i with
  | addReg _ _ _ | addImm _ _ _ | andReg _ _ _ | andImm _ _ _ | notReg _ _ | lea _ _ => rfl
  | ld _ _ | ldr _ _ _ => exact congrArg Host.Outcome.next (s.loadInto_setCond c _ _)
  | ldi _ off9 =>
    refine congrArg Host.Outcome.next ?_
    rw [State.afterPointer_setCond, State.indirect9_setCond]
    exact State.loadInto_setCond _ c _ _
  | getc => exact (getcService_eq _).trans (getcService_eq s.saveReturn).symm
  | inTrap => exact (inService_eq _).trans (inService_eq s.saveReturn).symm
  | trap code => exact absurd hrow (decodeTrap_ne_trap code code)
  | _ => cases hflag

/-- Every instruction that sets flags does the same from any condition code. -/
theorem exec_setCond_of_flagReg {i : Instr} {r : Reg} (hflag : flagReg i = some r) (s : State)
    (c : Cond) : exec i (s.setCond c) = exec i s := by
  simp only [exec_resolve i]
  exact exec_row_setCond_of_flagReg (resolve_resolve i) ((flagReg_resolve i).trans hflag) s c

/-- A row that sets no flags and is not BR carries the condition code along. -/
theorem exec_row_setCond {i : Instr} {s t : State} (hrow : i.resolve = i) (hflag : flagReg i = none)
    (hbr : ∀ nzp off9, i ≠ .br nzp off9) (h : exec i s = .next t) (c : Cond) :
    exec i (s.setCond c) = .next (t.setCond c) := by
  cases i with
  | jmp _ | jsr _ | jsrr _ | st _ _ | str _ _ _ | reserved8 _ | reservedD _ | out | halt
  | trapUnknown _ =>
    obtain rfl := Host.Outcome.next.inj h
    rfl
  | sti _ off9 =>
    obtain rfl := Host.Outcome.next.inj h
    simp only [exec, execSti, State.afterPointer_setCond, State.indirect9_setCond]
    rfl
  | puts | putsp => exact stringService_setCond (s := s.saveReturn) c h
  | br nzp off9 => exact absurd rfl (hbr nzp off9)
  | trap code => exact absurd hrow (decodeTrap_ne_trap code code)
  | _ => cases hflag

/-- Every instruction that sets no flags, but BR, carries the condition code along. -/
theorem exec_setCond {i : Instr} {s t : State} (hflag : flagReg i = none)
    (hbr : ∀ nzp off9, i ≠ .br nzp off9) (h : exec i s = .next t) (c : Cond) :
    exec i (s.setCond c) = .next (t.setCond c) := by
  rw [exec_resolve] at h ⊢
  exact exec_row_setCond (resolve_resolve i) ((flagReg_resolve i).trans hflag) (resolve_ne_br hbr) h c

/-- Settles O44: an instruction that sets flags overwrites the condition code it started from, and any
other but BR carries it along. -/
theorem onlyBrReadsCond : Obligations.OnlyBrReadsCond := by
  intro i s t c hbr h
  cases hflag : flagReg i with
  | some r => exact ⟨t, (exec_setCond_of_flagReg hflag s c).trans h, rfl, fun _ => rfl, nofun⟩
  | none => exact ⟨t.setCond c, exec_setCond hflag hbr h c, rfl, fun hn => absurd rfl hn, fun _ => rfl⟩

end Sys2Proof.Machine

/-! Memory and the keyboard's two Words: what a read and a write do, what an instruction stores, and
that a stored Word is the one the next fetch reads (`20_memory.md`). -/

namespace Sys2Proof.Machine

/-! ## What a write and a read leave alone -/

theorem State.memWrite_keepsMemory (s : State) (a v : Word) :
    KeepsMemoryBut [a] s (s.memWrite a v) :=
  fun _ hb => s.word_memWrite_other v (List.ne_of_not_mem_cons hb)

theorem State.afterRead_keepsMemory (s : State) (a : Word) :
    KeepsMemoryBut [Config.kbsr, Config.kbdr] s (s.afterRead a) :=
  fun _ hx => s.afterRead_word_other a (List.ne_of_not_mem_cons hx)
    (List.ne_of_not_mem_cons (List.not_mem_of_not_mem_cons hx))

/-- Settles O24: the laws of a store, and that it is an update of memory only. -/
theorem memWriteStoresEverywhere : Obligations.MemWriteStoresEverywhere :=
  fun s a v => ⟨s.word_memWrite_same a v, s.memWrite_keepsMemory a v, rfl⟩

/-! ## The poll, by the host's answer -/

theorem State.pollKeyboard_ports (s : State) : s.pollKeyboard.ports =
    if s.ports.pollAnswer then s.ports.polled.charRead else s.ports.polled := by
  rcases s.pollKeyboard_cases with ⟨ha, hp⟩ | ⟨ha, hp⟩ <;> rw [ha, hp] <;> rfl

theorem State.pollKeyboard_word_kbsr (s : State) (h : s.mem.wf) :
    s.pollKeyboard.word Config.kbsr = if s.ports.pollAnswer then 0x8000 else 0x0000 := by
  rw [← s.memRead_kbsr h, State.memRead, State.afterRead_kbsr]

/-- KBDR holds the character of a poll that finds input; any other poll leaves it. -/
theorem State.pollKeyboard_word_kbdr (s : State) (h : s.mem.wf) :
    s.pollKeyboard.word Config.kbdr =
      if s.ports.pollAnswer then zext8 s.ports.polled.nextChar else s.word Config.kbdr := by
  rcases s.pollKeyboard_cases with ⟨ha, hp⟩ | ⟨ha, hp⟩ <;> rw [ha, hp]
  · exact State.word_memWrite_other _ _ kbsr_ne_kbdr.symm
  · exact State.word_memWrite_same _ _ _ (State.memWrite_wf _ _ _ h)

/-- The transactions of one poll: its answer, and after a true one the character read. -/
theorem State.pollKeyboard_trace (s : State) : s.pollKeyboard.ports.trace =
    s.ports.trace ++ .pollInput s.ports.pollAnswer ::
      if s.ports.pollAnswer then [.readChar s.ports.polled.nextChar] else [] := by
  rw [State.pollKeyboard_ports]
  cases hpoll : s.ports.pollAnswer <;> simp [hpoll]

/-- Settles O21: the two outcomes are the two answers of the poll. -/
theorem kbsrReadPollsTheConsole : Obligations.KbsrReadPollsTheConsole := by
  intro s hw
  refine ⟨rfl, s.afterRead_keepsMemory _, fun r _ => s.afterRead_reg _ r, s.afterRead_pc _,
    s.afterRead_cond _, ⟨s.afterRead_run _, s.afterRead_faultInfo _, s.afterRead_stopReq _⟩, ?_⟩
  rw [State.afterRead_kbsr, s.pollKeyboard_word_kbsr hw, s.pollKeyboard_word_kbdr hw,
    s.pollKeyboard_trace]
  cases s.ports.pollAnswer with
  | false => exact .inl ⟨rfl, rfl, rfl⟩
  | true => exact .inr ⟨s.ports.polled.nextChar, rfl, rfl, rfl⟩

/-- A character read is the script's first, if the script has one left. -/
theorem Ports.keys_charRead (p : Ports) : p.keys = [] ∨ p.keys = p.nextChar :: p.charRead.keys := by
  unfold Ports.charRead Ports.nextChar
  cases p.keys with
  | nil => exact .inl rfl
  | cons c cs => exact .inr rfl

/-- The host has one character to give and then none, and answers two polls accordingly: vector K6 of
`95_test_vectors.md`. -/
def oneKeyPressed : State :=
  State.reset.setPorts { Ports.reset with polls := [true, false], keys := [0x61], keysEnded := true }

/-- Settles O23: the intercept is at KBSR only, a poll's transactions follow its answer, and the second
of two reads finds the character gone. -/
theorem onlyTheKbsrReadHasSideEffects : Obligations.OnlyTheKbsrReadHasSideEffects := by
  refine ⟨fun s a ha => ?_, fun s => ?_, oneKeyPressed, by decide⟩
  · rw [s.afterRead_of_ne ha]
    exact ⟨rfl, rfl⟩
  · rw [State.afterRead_kbsr, s.pollKeyboard_trace, s.pollKeyboard_ports]
    cases hpoll : s.ports.pollAnswer with
    | false => exact ⟨false, [], rfl, nofun, fun _ => ⟨rfl, rfl⟩⟩
    | true =>
      refine ⟨true, _, rfl, fun _ => ⟨s.ports.polled.nextChar, rfl, fun hw => ?_, ?_⟩, nofun⟩
      · rw [s.pollKeyboard_word_kbdr hw, if_pos hpoll]
      · exact s.ports.polled.keys_charRead

/-! ## Where an instruction stores -/

theorem storeAddress_resolve (s : State) (i : Instr) :
    storeAddress s i.resolve = storeAddress s i := by
  cases i with
  | trap code =>
    show storeAddress s (decodeTrap code) = none
    unfold decodeTrap
    split_ifs <;> rfl
  | _ => rfl

/-- A row of the opcode map changes the Word it stores and, by the polls of its reads, KBSR and KBDR. -/
theorem exec_row_word_other {i : Instr} {s t : State} {a : Word} (hrow : i.resolve = i)
    (h : exec i s = .next t) (hstore : storeAddress s i ≠ some a) (hkbsr : a ≠ Config.kbsr)
    (hkbdr : a ≠ Config.kbdr) : t.word a = s.word a := by
  have hread (u : State) (b : Word) : (u.afterRead b).word a = u.word a :=
    u.afterRead_word_other b hkbsr hkbdr
  cases i with
  | addReg _ _ _ | addImm _ _ _ | andReg _ _ _ | andImm _ _ _ | notReg _ _ | lea _ _ | jmp _ | jsr _
  | jsrr _ | reserved8 _ | reservedD _ | out | halt | trapUnknown _ =>
    obtain rfl := Host.Outcome.next.inj h
    rfl
  | br _ _ =>
    obtain rfl := Host.Outcome.next.inj h
    split_ifs <;> rfl
  | ld _ _ | ldr _ _ _ =>
    obtain rfl := Host.Outcome.next.inj h
    exact hread s _
  | ldi _ _ =>
    obtain rfl := Host.Outcome.next.inj h
    exact (hread _ _).trans (hread s _)
  | st _ _ | str _ _ _ =>
    obtain rfl := Host.Outcome.next.inj h
    exact s.word_memWrite_other _ fun e => hstore (congrArg some e.symm)
  | sti _ _ =>
    obtain rfl := Host.Outcome.next.inj h
    exact (State.word_memWrite_other _ _ fun e => hstore (congrArg some e.symm)).trans (hread s _)
  | getc =>
    obtain rfl := getcService_next h
    rfl
  | inTrap =>
    obtain rfl := inService_next h
    rfl
  | puts | putsp => exact (stringService_frame h).word a hkbsr hkbdr
  | trap code => exact absurd hrow (decodeTrap_ne_trap code code)

/-- Settles O42: every instruction does to memory what the row it resolves to does. -/
theorem memoryChangesOnlyWhereStored : Obligations.MemoryChangesOnlyWhereStored :=
  fun i s _ h _ hstore => exec_row_word_other (resolve_resolve i) (exec_resolve i s ▸ h)
    (storeAddress_resolve s i ▸ hstore)

/-! ## The next fetch reads the stored Word -/

theorem step_of_running {s : State} (hrun : s.run = .running) (hstop : s.sampleStop.stopReq = false) :
    step s = exec (decodeWord s.sampleStop.fetchWord) s.sampleStop.afterFetch := by
  rw [step, s.turn_execute hrun hstop]

/-- Sampling the stop request changes neither `pc` nor any Word, so away from KBSR the Word that stands
at `pc` is the one a step runs. -/
theorem step_of_word {s : State} {ir : Word} (hrun : s.run = .running)
    (hstop : s.sampleStop.stopReq = false) (hpc : s.pc ≠ Config.kbsr) (hword : s.word s.pc = ir) :
    step s = exec (decodeWord ir) s.sampleStop.afterFetch := by
  rw [step_of_running hrun hstop, State.fetchWord, State.sampleStop_pc, State.memRead_of_ne _ hpc,
    State.sampleStop_word, hword]

@[simp] theorem State.pcRel9_zero (s : State) : s.pcRel9 0 = s.pc := BitVec.add_zero s.pc

/-- Settles O26: ST with offset 0 writes at `pc`, and the next fetch reads there. -/
theorem storeIsSeenByTheNextFetch : Obligations.StoreIsSeenByTheNextFetch := by
  intro s sr hw hrun hpc
  have hexec : exec (.st sr 0) s = .next (s.memWrite s.pc (s.reg sr)) := by
    rw [exec, execSt, State.pcRel9_zero]
  have hstored : (s.memWrite s.pc (s.reg sr)).word s.pc = s.reg sr := s.word_memWrite_same _ _ hw
  exact ⟨_, hexec, hstored, fun hstop => step_of_word hrun hstop hpc hstored⟩

theorem State.fetchSlot_ne_kbsr (s : State) : s.fetchSlot ≠ Config.kbsr := by
  unfold State.fetchSlot
  split_ifs with hpc
  · decide
  · exact hpc

/-- The placed Word stands in the fetch slot, which is where `pc` is. -/
theorem State.placeForFetch_word (s : State) (ir : Word) (h : s.mem.wf) :
    (s.placeForFetch ir).word (s.placeForFetch ir).pc = ir := s.word_memWrite_same s.fetchSlot ir h

/-- The step from a placed Word runs its instruction, at the state with `pc` past the fetch slot. -/
theorem step_placeForFetch (s : State) (ir : Word) (h : s.mem.wf) :
    step (s.placeForFetch ir) =
      exec (decodeWord ir) ((s.placeForFetch ir).setPc (s.fetchSlot + 1)) := by
  have hpc : (s.placeForFetch ir).pc ≠ Config.kbsr := s.fetchSlot_ne_kbsr
  rw [step_of_word rfl rfl hpc (s.placeForFetch_word ir h)]
  exact congrArg (exec _) (State.afterFetch_of_ne _ hpc)

/-- Settles O48: a Word below 65536 is placed as it is. -/
theorem placedWordRunsNext : Obligations.PlacedWordRunsNext := by
  intro s w hw hlt
  have hword : w % 2 ^ 16 = w := Nat.mod_eq_of_lt hlt
  rw [State.withFetchWord, hword]
  exact step_placeForFetch s _ hw

end Sys2Proof.Machine

/-! The rows the decoder answers with (`30_encoding.md` R82, R88). -/

namespace Sys2Proof

/-- The opcode of an instruction's row (`30_encoding.md` R88). -/
def Instr.opcode : Instr → Opcode
  | .addReg _ _ _ | .addImm _ _ _ => .add
  | .andReg _ _ _ | .andImm _ _ _ => .and
  | .notReg _ _ => .not
  | .br _ _ => .br
  | .jmp _ => .jmp
  | .jsr _ | .jsrr _ => .jsr
  | .ld _ _ => .ld
  | .ldi _ _ => .ldi
  | .ldr _ _ _ => .ldr
  | .lea _ _ => .lea
  | .st _ _ => .st
  | .sti _ _ => .sti
  | .str _ _ _ => .str
  | .reserved8 _ => .reserved8
  | .reservedD _ => .reservedD
  | .trap _ | .getc | .out | .puts | .inTrap | .putsp | .halt | .trapUnknown _ => .trap

theorem opcode_decodeTrap (code : BitVec 8) : (decodeTrap code).opcode = .trap := by
  unfold decodeTrap
  split_ifs <;> rfl

/-- A Word decodes to a row of its own opcode. -/
theorem opcode_decodeWord (w : Word) : (decodeWord w).opcode = Opcode.ofBits (opcodeField w) := by
  unfold decodeWord
  cases Opcode.ofBits (opcodeField w) with
  | add | and | jsr => split_ifs <;> rfl
  | trap => exact opcode_decodeTrap _
  | _ => rfl

/-- The row a Word decodes to tells the Word's opcode bits. -/
theorem opcodeField_of_decodeWord {w : Word} {op : Opcode} (h : (decodeWord w).opcode = op) :
    opcodeField w = op.bits := by
  rw [← h, opcode_decodeWord, Opcode.bits_ofBits]

/-- The decoder answers with rows only, never with TRAP's general spelling (log entry 20). -/
theorem resolve_decodeWord (w : Word) : (decodeWord w).resolve = decodeWord w := by
  unfold decodeWord
  cases Opcode.ofBits (opcodeField w) with
  | add | and | jsr => split_ifs <;> rfl
  | trap => exact Machine.resolve_resolve (.trap (trapField w))
  | _ => rfl

end Sys2Proof

/-! The fetch and dispatch of a running step, and how the run ends (`30_encoding.md` R80, R81). -/

namespace Sys2Proof.Machine

/-! ## How the run ends -/

/-- HALT and the reserved opcodes write `run`; every other row keeps it (`30_encoding.md` R81). -/
theorem exec_row_run {i : Instr} {s t : State} (hrow : i.resolve = i) (h : exec i s = .next t) :
    t.run = s.run ∨ (t.run = .halted ∧ i = .halt) ∨
      (t.run = .faulted ∧ (i.opcode = .reserved8 ∨ i.opcode = .reservedD)) := by
  cases i with
  | halt =>
    obtain rfl := Host.Outcome.next.inj h
    exact .inr (.inl ⟨rfl, rfl⟩)
  | reserved8 _ =>
    obtain rfl := Host.Outcome.next.inj h
    exact .inr (.inr ⟨rfl, .inl rfl⟩)
  | reservedD _ =>
    obtain rfl := Host.Outcome.next.inj h
    exact .inr (.inr ⟨rfl, .inr rfl⟩)
  | addReg _ _ _ | addImm _ _ _ | andReg _ _ _ | andImm _ _ _ | notReg _ _ | lea _ _ | jmp _ | jsr _
  | jsrr _ | st _ _ | str _ _ _ | out | trapUnknown _ =>
    obtain rfl := Host.Outcome.next.inj h
    exact .inl rfl
  | br _ _ =>
    obtain rfl := Host.Outcome.next.inj h
    left
    split_ifs <;> rfl
  | ld _ _ | ldr _ _ _ | sti _ _ =>
    obtain rfl := Host.Outcome.next.inj h
    exact .inl (s.afterRead_run _)
  | ldi _ _ =>
    obtain rfl := Host.Outcome.next.inj h
    exact .inl ((State.afterRead_run _ _).trans (s.afterRead_run _))
  | getc =>
    obtain rfl := getcService_next h
    exact .inl rfl
  | inTrap =>
    obtain rfl := inService_next h
    exact .inl rfl
  | puts | putsp => exact .inl (stringService_frame h).run
  | trap code => exact absurd hrow (decodeTrap_ne_trap code code)

/-- Settles O51: the stop request is sampled before the fetch, and without one the fetched Word's row
says what becomes of `run`. -/
theorem runEndsOnlyThreeWays : Obligations.RunEndsOnlyThreeWays := by
  intro s t hrun hstep
  obtain ⟨hboot, -⟩ | ⟨-, hstop, rfl⟩ | ⟨-, hstop, hexec⟩ := step_cases hstep
  · cases hboot.symm.trans hrun
  · exact .inr (.inl ⟨rfl, hstop⟩)
  · obtain hkeep | hhalt | ⟨hfault, hop⟩ := exec_row_run (resolve_decodeWord _) hexec
    · rw [State.afterFetch_run, State.sampleStop_run, hrun] at hkeep
      exact .inl ⟨hkeep, hstop⟩
    · exact .inr (.inr (.inl hhalt))
    · exact .inr (.inr (.inr ⟨hfault, hop.imp opcodeField_of_decodeWord opcodeField_of_decodeWord⟩))

/-! ## The fetched instruction -/

/-- Sampling the stop request does not change what a fetch away from KBSR reads. -/
theorem State.fetchWord_sampleStop_of_ne (s : State) (hpc : s.pc ≠ Config.kbsr) :
    s.sampleStop.fetchWord = s.word s.pc := by
  rw [State.fetchWord, State.sampleStop_pc, State.memRead_of_ne _ hpc, State.sampleStop_word]

/-- Sampling and a fetch away from KBSR change no Word and carry no transaction. -/
theorem State.afterFetch_sampleStop_plain (s : State) (hpc : s.pc ≠ Config.kbsr) :
    KeepsMemoryBut [] s s.sampleStop.afterFetch ∧
      s.sampleStop.afterFetch.ports.trace = s.ports.trace := by
  have hpc' : s.sampleStop.pc ≠ Config.kbsr := by rwa [State.sampleStop_pc]
  rw [State.afterFetch_of_ne _ hpc']
  exact ⟨fun a _ => s.sampleStop_word a, s.sampleStop_trace⟩

/-- Settles O47: the step's dispatch, and what sampling and the fetch leave unchanged before it. -/
theorem stepRunsTheFetchedInstruction : Obligations.StepRunsTheFetchedInstruction := by
  rintro s _ hrun hstop rfl
  refine ⟨step_of_running hrun hstop, ?_, fun r _ => ?_, ?_, ?_, fun hpc =>
    ⟨s.fetchWord_sampleStop_of_ne hpc, s.afterFetch_sampleStop_plain hpc⟩⟩
  · rw [State.afterFetch_pc, State.sampleStop_pc]
  · rw [State.afterFetch_reg, State.sampleStop_reg]
  · rw [State.afterFetch_cond, State.sampleStop_cond]
  · rw [State.afterFetch_run, State.sampleStop_run]

end Sys2Proof.Machine

/-! ADD, AND and NOT (`40_operate.md`). -/

namespace Sys2Proof.Machine

/-- Writing a result changes the destination and the condition code, and nothing else: the frame every
operate instruction ends with (`10_state.md` R28). -/
theorem State.writeResult_writesOnly (s : State) (dr : Reg) (v : Word) :
    WritesOnly dr v s (s.writeResult dr v) where
  result := s.writeResult_reg_same dr v
  flags := by
    rw [State.writeResult_cond]
    exact isCondOf_classify v
  regs _ hr := s.writeResult_reg_other v (List.ne_of_not_mem_cons hr)
  pc := s.writeResult_pc dr v
  mem a _ := s.writeResult_word dr v a
  control := ⟨s.writeResult_run dr v, s.writeResult_faultInfo dr v, s.writeResult_stopReq dr v⟩
  ports := s.writeResult_ports dr v

/-- Settles O9: either form writes the sum of its operands, and a sum of Words wraps at 2^16. -/
theorem addWritesTheWrappedSum : Obligations.AddWritesTheWrappedSum :=
  fun s dr sr1 =>
    ⟨fun sr2 => ⟨_, _, rfl, s.writeResult_writesOnly dr (s.reg sr1 + s.regOperand sr2),
      BitVec.toNat_add _ _⟩,
    fun imm5 => ⟨_, _, rfl, s.writeResult_writesOnly dr (s.reg sr1 + immOperand imm5),
      BitVec.toNat_add _ _⟩⟩

/-- Settles O10: either form writes the AND of its operands, the immediate one sign-extended. -/
theorem andWritesTheBitwiseAnd : Obligations.AndWritesTheBitwiseAnd :=
  fun s dr sr1 =>
    ⟨fun sr2 => ⟨_, _, rfl, s.writeResult_writesOnly dr (s.reg sr1 &&& s.regOperand sr2),
      fun _ _ => BitVec.getLsbD_and⟩,
    fun imm5 => ⟨_, _, rfl, s.writeResult_writesOnly dr (s.reg sr1 &&& immOperand imm5),
      fun _ _ => BitVec.getLsbD_and⟩⟩

/-- Settles O11: NOT writes the complement, which inverts each of the Word's sixteen bits. -/
theorem notComplementsEveryBit : Obligations.NotComplementsEveryBit :=
  fun s dr sr => ⟨_, _, rfl, s.writeResult_writesOnly dr (~~~s.reg sr), fun _ hk => by
    rw [BitVec.getLsbD_not, decide_eq_true hk, Bool.true_and]⟩

end Sys2Proof.Machine

/-! JMP and JSR (`41_control.md`). -/

namespace Sys2Proof.Machine

/-- Moving `pc` changes nothing else: the frame of a transfer without a link (`41_control.md` R139). -/
theorem State.setPc_goesTo (s : State) (target : Word) : GoesTo [] target s (s.setPc target) where
  pc := s.setPc_pc target
  regs r _ := s.setPc_reg target r
  cond := s.setPc_cond target
  mem a _ := s.setPc_word target a
  control := ⟨s.setPc_run target, s.setPc_faultInfo target, s.setPc_stopReq target⟩
  ports := s.setPc_ports target

/-- Saving the return address widens the frame of the transfer that follows by R7 alone. -/
theorem GoesTo.of_saveReturn {target : Word} {s t : State} (h : GoesTo [] target s.saveReturn t) :
    GoesTo [7] target s t where
  pc := h.pc
  regs r hr := (h.regs r List.not_mem_nil).trans (s.saveReturn_reg_other (List.ne_of_not_mem_cons hr))
  cond := h.cond.trans s.saveReturn_cond
  mem a ha := (h.mem a ha).trans (s.saveReturn_word a)
  control := by
    obtain ⟨hrun, hfault, hstop⟩ := h.control
    exact ⟨hrun.trans s.saveReturn_run, hfault.trans s.saveReturn_faultInfo,
      hstop.trans s.saveReturn_stopReq⟩
  ports := h.ports.trans s.saveReturn_ports

/-- A transfer that keeps every register keeps the return address saved before it. -/
theorem GoesTo.reg7_of_saveReturn {target : Word} {s t : State}
    (h : GoesTo [] target s.saveReturn t) : t.reg 7 = s.pc :=
  (h.regs 7 List.not_mem_nil).trans s.saveReturn_reg7

/-- Settles O13: JMP only moves `pc`, to the base register's value. -/
theorem jmpGoesToTheBaseRegister : Obligations.JmpGoesToTheBaseRegister :=
  fun s base => ⟨_, rfl, s.setPc_goesTo (s.reg base)⟩

/-- Settles O14: JSR saves the return address and then only moves `pc`; its target is computed from the
state before both. -/
theorem jsrLinksAndGoesPcRelative : Obligations.JsrLinksAndGoesPcRelative := fun s off11 =>
  have transfer := s.saveReturn.setPc_goesTo (s.pcRel11 off11)
  ⟨_, rfl, transfer.reg7_of_saveReturn, transfer.of_saveReturn⟩

end Sys2Proof.Machine

/-! LD, LDI, LDR, LEA, ST, STI and STR (`42_load_store.md`). -/

namespace Sys2Proof.Machine

/-! ## One frame after another -/

theorem KeepsRunControl.trans {s t u : State} (h : KeepsRunControl s t) (k : KeepsRunControl t u) :
    KeepsRunControl s u := by
  obtain ⟨hrun, hfault, hstop⟩ := h
  obtain ⟨krun, kfault, kstop⟩ := k
  exact ⟨krun.trans hrun, kfault.trans hfault, kstop.trans hstop⟩

theorem KeepsMemoryBut.trans {stored : List Word} {s t u : State} (h : KeepsMemoryBut stored s t)
    (k : KeepsMemoryBut stored t u) : KeepsMemoryBut stored s u :=
  fun a ha => (k a ha).trans (h a ha)

/-- At most, a read polls, and a poll leaves the run's control state alone (`20_memory.md` R54). -/
theorem State.afterRead_keepsRunControl (s : State) (a : Word) : KeepsRunControl s (s.afterRead a) :=
  ⟨s.afterRead_run a, s.afterRead_faultInfo a, s.afterRead_stopReq a⟩

/-! ## Loads -/

/-- A load from anywhere but KBSR only writes the stored Word as a result (`20_memory.md` R56). -/
theorem State.loadInto_of_ne (s : State) (dr : Reg) {ea : Word} (hea : ea ≠ Config.kbsr) :
    s.loadInto dr ea = s.writeResult dr (s.word ea) := by
  rw [State.loadInto, s.afterRead_of_ne hea, s.memRead_of_ne hea]

/-- Every load ends as a read, with its effect on memory and the ports, and then a result. -/
theorem State.loadInto_loadsFrom (s : State) (dr : Reg) (ea : Word) :
    LoadsFrom dr ea s (s.loadInto dr ea) := by
  have hwrite := (s.afterRead ea).writeResult_writesOnly dr (s.memRead ea)
  exact {
    result := hwrite.result
    flags := hwrite.flags
    regs := fun r hr => (hwrite.regs r hr).trans (s.afterRead_reg ea r)
    pc := hwrite.pc.trans (s.afterRead_pc ea)
    mem := hwrite.mem
    control := (s.afterRead_keepsRunControl ea).trans hwrite.control
    ports := hwrite.ports
    plain := fun hea => by
      have hplain := s.writeResult_writesOnly dr (s.word ea)
      rw [s.loadInto_of_ne dr hea]
      exact ⟨hplain.result, hplain.mem, hplain.ports⟩ }

/-- The only Words a load can change are the keyboard's, and only by its read. -/
theorem LoadsFrom.keepsMemory {dr : Reg} {ea : Word} {s t : State} (h : LoadsFrom dr ea s t) :
    KeepsMemoryBut [Config.kbsr, Config.kbdr] s t :=
  (s.afterRead_keepsMemory ea).trans fun a _ => h.mem a List.not_mem_nil

/-- Settles O16: LD and LDR are `loadInto` at their effective addresses. -/
theorem ldAndLdrLoadFromTheirAddress : Obligations.LdAndLdrLoadFromTheirAddress :=
  fun s dr => ⟨fun off9 => ⟨_, rfl, s.loadInto_loadsFrom dr (s.pcRel9 off9)⟩,
    fun base off6 => ⟨_, rfl, s.loadInto_loadsFrom dr (s.baseOff6 base off6)⟩⟩

/-- Settles O17: LDI is `loadInto` at the state the pointer read leaves, and that read adds nothing to
what a load may change; away from KBSR it leaves the state as it was. -/
theorem ldiLoadsThroughThePointer : Obligations.LdiLoadsThroughThePointer := by
  intro s dr off9 pa
  have hload := (s.afterRead pa).loadInto_loadsFrom dr (s.memRead pa)
  have hexec : exec (.ldi dr off9) s = .next ((s.afterRead pa).loadInto dr (s.memRead pa)) := rfl
  have hrow := exec_keeps hexec
  refine ⟨_, hexec, hload, hrow.regs, hrow.pc rfl,
    (s.afterRead_keepsRunControl pa).trans hload.control,
    (s.afterRead_keepsMemory pa).trans hload.keepsMemory, fun hpa hptr => ?_⟩
  rw [s.afterRead_of_ne hpa, s.memRead_of_ne hpa] at hload ⊢
  exact hload.plain hptr

/-- Settles O18: LEA writes its effective address as a result and accesses no memory. -/
theorem leaWritesTheAddress : Obligations.LeaWritesTheAddress :=
  fun s dr off9 => ⟨_, rfl, s.writeResult_writesOnly dr (s.pcRel9 off9)⟩

/-! ## Stores -/

/-- A store changes the Word at its address and nothing else (`20_memory.md` R57). -/
theorem State.memWrite_storesAt (s : State) (a v : Word) : StoresAt a v s (s.memWrite a v) where
  stored := s.word_memWrite_same a v
  mem := s.memWrite_keepsMemory a v
  regs r _ := s.memWrite_reg a v r
  pc := s.memWrite_pc a v
  cond := s.memWrite_cond a v
  control := ⟨s.memWrite_run a v, s.memWrite_faultInfo a v, s.memWrite_stopReq a v⟩
  ports := s.memWrite_ports a v

/-- Settles O19: ST and STR are `memWrite` at their effective addresses. -/
theorem stAndStrStoreAtTheirAddress : Obligations.StAndStrStoreAtTheirAddress :=
  fun s sr => ⟨fun off9 => ⟨_, rfl, s.memWrite_storesAt (s.pcRel9 off9) (s.reg sr)⟩,
    fun base off6 => ⟨_, rfl, s.memWrite_storesAt (s.baseOff6 base off6) (s.reg sr)⟩⟩

/-- STI reads SR after the pointer, and the pointer read changes no register. -/
theorem exec_sti (s : State) (sr : Reg) (off9 : BitVec 9) : exec (.sti sr off9) s =
    .next ((s.afterRead (s.pcRel9 off9)).memWrite (s.memRead (s.pcRel9 off9)) (s.reg sr)) := by
  rw [← s.afterRead_reg (s.pcRel9 off9) sr]
  rfl

/-- Settles O20: STI is `memWrite` at the state the pointer read leaves; away from KBSR that is the
state before it. -/
theorem stiStoresThroughThePointer : Obligations.StiStoresThroughThePointer := by
  intro s sr off9 pa
  have hstore := (s.afterRead pa).memWrite_storesAt (s.memRead pa) (s.reg sr)
  have hexec : exec (.sti sr off9) s =
      .next ((s.afterRead pa).memWrite (s.memRead pa) (s.reg sr)) := exec_sti s sr off9
  have hrow := exec_keeps hexec
  refine ⟨_, hexec, hstore, hrow.regs, hrow.pc rfl, hrow.cond rfl,
    (s.afterRead_keepsRunControl pa).trans hstore.control, fun hpa => ?_⟩
  rw [s.afterRead_of_ne hpa, s.memRead_of_ne hpa] at hstore ⊢
  exact hstore

end Sys2Proof.Machine

/-! The trap services and TRAP's general spelling (`43_trap.md`). -/

namespace Sys2Proof.Machine

/-! ## The frame of a service

Every service starts from the save of R7 and goes on with port transactions, and GETC and IN end with
the character in R0. Each of the three stays within `ServiceFrame` (`43_trap.md` R205). -/

theorem State.saveReturn_serviceFrame (s : State) : ServiceFrame [7] [] s s.saveReturn where
  link := s.saveReturn_reg7
  regs _ hr := s.saveReturn_reg_other (List.ne_of_not_mem_cons hr)
  pc := s.saveReturn_pc
  mem a _ := s.saveReturn_word a
  fault := s.saveReturn_faultInfo
  stop := s.saveReturn_stopReq
  trace := (List.append_nil _).symm

/-- Further transactions extend the frame's events. -/
theorem ServiceFrame.setPorts {written : List Reg} {es fs : List PortEvent} {s t : State} {p : Ports}
    (h : ServiceFrame written es s t) (hp : p.trace = t.ports.trace ++ fs) :
    ServiceFrame written (es ++ fs) s (t.setPorts p) where
  link := h.link
  regs := h.regs
  pc := h.pc
  mem := h.mem
  fault := h.fault
  stop := h.stop
  trace := by rw [State.setPorts_ports, hp, h.trace, List.append_assoc]

theorem State.charToR0_reg7 (s : State) (c : Byte) : (s.charToR0 c).reg 7 = s.reg 7 :=
  s.writeResult_reg_other (zext8 c) (by decide)

/-- A character kept in R0 adds R0 to the registers written, and no event. -/
theorem ServiceFrame.charToR0 {es : List PortEvent} {s t : State} (h : ServiceFrame [7] es s t)
    (c : Byte) : ServiceFrame [7, 0] es s (t.charToR0 c) where
  link := (t.charToR0_reg7 c).trans h.link
  regs r hr := by
    have hr7 : r ∉ [7] := fun h7 => hr (List.mem_append_left [0] h7)
    have hr0 : r ≠ 0 := List.ne_of_not_mem_cons (List.not_mem_of_not_mem_cons hr)
    exact (t.writeResult_reg_other _ hr0).trans (h.regs r hr7)
  pc := h.pc
  mem := h.mem
  fault := h.fault
  stop := h.stop
  trace := h.trace

/-! ## The character read -/

theorem zext8_msb (c : Byte) : (zext8 c).msb = false := by
  simp [zext8, BitVec.msb_setWidth]

/-- A character in R0 has its flags, and the sign bit of a zero-extended byte is clear
(`00_scope.md` R6, `43_trap.md` R192). -/
theorem State.charToR0_result (s : State) (c : Byte) : (s.charToR0 c).reg 0 = zext8 c ∧
    IsCondOf (zext8 c) (s.charToR0 c).cond ∧ (s.charToR0 c).cond ≠ .negative := by
  have hwrite : WritesOnly 0 (zext8 c) s (s.charToR0 c) := s.writeResult_writesOnly 0 (zext8 c)
  refine ⟨hwrite.result, hwrite.flags, fun hneg => ?_⟩
  obtain ⟨-, hsign, -⟩ := hwrite.flags
  have hmsb := BitVec.msb_eq_toInt (x := zext8 c)
  rw [zext8_msb, decide_eq_true (hsign.mp hneg)] at hmsb
  cases hmsb

/-- A scripted character is the one read, and reading uses it up (log entry 8). -/
theorem Ports.charRead_of_key {p : Ports} {k : Byte} {ks : List Byte} (h : p.keys = k :: ks) :
    p.nextChar = k ∧ p.charRead.keys = ks := by
  simp [Ports.nextChar, Ports.charRead, h]

/-! ## GETC, OUT and IN -/

theorem exec_getc {s : State} (h : s.ports.charToCome = true) : exec .getc s =
    .next ((s.saveReturn.setPorts s.ports.charRead).charToR0 s.ports.nextChar) :=
  (getcService_eq s.saveReturn).trans (if_pos h)

theorem exec_inTrap {s : State} (h : s.ports.charToCome = true) : exec .inTrap s =
    .next (s.saveReturn.promptReadEcho.charToR0 s.ports.nextChar) :=
  (inService_eq s.saveReturn).trans (if_pos h)

/-- OUT's character is R0 of the state before trap entry, which writes R7 only. -/
theorem exec_out (s : State) :
    exec .out s = .next (s.saveReturn.writeChar (lowByte (s.reg 0))) := by
  rw [← s.saveReturn_reg_other (q := 0) (by decide)]
  rfl

/-- Settles O27: GETC reads the next character and keeps it in R0. -/
theorem getcReadsOneCharacter : Obligations.GetcReadsOneCharacter := by
  intro s hcome
  have hframe := (s.saveReturn_serviceFrame.setPorts s.ports.charRead_trace).charToR0 s.ports.nextChar
  obtain ⟨hresult, hflags, hsign⟩ :=
    (s.saveReturn.setPorts s.ports.charRead).charToR0_result s.ports.nextChar
  exact ⟨_, _, exec_getc hcome, hresult, hflags, hsign, rfl, hframe, fun _ _ => Ports.charRead_of_key⟩

/-- Settles O28: after trap entry OUT is one transaction. -/
theorem outWritesTheLowByte : Obligations.OutWritesTheLowByte :=
  fun s => ⟨_, exec_out s, rfl, rfl,
    s.saveReturn_serviceFrame.setPorts (s.ports.charsWritten_trace [lowByte (s.reg 0)])⟩

/-! ## The service of a code -/

theorem exec_trap (code : BitVec 8) (s : State) : exec (.trap code) s = exec (decodeTrap code) s :=
  exec_resolve (.trap code) s

theorem decodeTrap_of_no_service {code : BitVec 8} (h : code < 0x20 ∨ 0x25 < code) :
    decodeTrap code = .trapUnknown code := by
  have hne (c : BitVec 8) (hc : 0x20 ≤ c ∧ c ≤ 0x25) : code ≠ c := by
    rintro rfl
    bv_omega
  simp [decodeTrap, hne]

/-- Settles O35: TRAP runs the row its code decodes to. -/
theorem trapRunsTheServiceOfItsCode : Obligations.TrapRunsTheServiceOfItsCode := fun s =>
  ⟨exec_trap _ s, exec_trap _ s, exec_trap _ s, exec_trap _ s, exec_trap _ s, exec_trap _ s,
    fun code hcode => by rw [exec_trap, decodeTrap_of_no_service hcode]⟩

/-! ## TRAP completes -/

/-- A string stands where it stood as long as no Word changes. -/
theorem PutsString.of_word_eq {s t : State} (hword : ∀ a, t.word a = s.word a) {ws : List Word}
    {a : Word} (h : PutsString s a ws) : PutsString t a ws := by
  induction ws generalizing a with
  | nil =>
    obtain ⟨ha, hend⟩ := h
    exact ⟨ha, (hword a).trans hend⟩
  | cons w ws ih =>
    obtain ⟨ha, hw, hne, hrest⟩ := h
    exact ⟨ha, (hword a).trans hw, hne, ih hrest⟩

/-- PUTS after trap entry meets the string that stood at R0 before it. -/
theorem exec_puts_string {s : State} {ws : List Word} (h : PutsString s (s.reg 0) ws) :
    exec .puts s = .next (s.saveReturn.writeChars (ws.map lowByte)) := by
  have hr0 : s.saveReturn.reg 0 = s.reg 0 := s.saveReturn_reg_other (by decide)
  exact putsService_string (hr0 ▸ h.of_word_eq s.saveReturn_word)

theorem ScanFrame.reg {s t : State} (h : ScanFrame s t) (q : Reg) : t.reg q = s.reg q := by
  rw [State.reg, State.reg, h.regs]

/-- Each service of a code goes on, under the condition of its row, and keeps the return address saved
at trap entry (`43_trap.md` R190). -/
theorem exec_trap_goes_on {s : State} {code : BitVec 8} (hw : s.mem.wf)
    (hcome : code = 0x20 ∨ code = 0x23 → s.ports.charToCome = true)
    (hstring : code = 0x22 → HasPutsString s (s.reg 0)) :
    ∃ t, exec (.trap code) s = .next t ∧ t.reg 7 = s.pc := by
  rw [exec_trap]
  unfold decodeTrap
  split_ifs with hgetc hout hputs hin hputsp hhalt
  · exact ⟨_, exec_getc (hcome (.inl hgetc)), (State.charToR0_reg7 _ _).trans s.saveReturn_reg7⟩
  · exact ⟨_, exec_out s, s.saveReturn_reg7⟩
  · obtain ⟨ws, hws⟩ := hstring hputs
    exact ⟨_, exec_puts_string hws, s.saveReturn_reg7⟩
  · exact ⟨_, exec_inTrap (hcome (.inr hin)), (State.charToR0_reg7 _ _).trans s.saveReturn_reg7⟩
  · obtain ⟨t, hnext, -⟩ := putspService_next s.saveReturn hw
    exact ⟨t, hnext, ((stringService_frame hnext).reg 7).trans s.saveReturn_reg7⟩
  · exact ⟨_, rfl, s.saveReturn_reg7⟩
  · exact ⟨_, rfl, s.saveReturn_reg7⟩

/-- An instruction that stores nowhere changes at most the keyboard's two Words, by its reads
(`20_memory.md` R54). -/
theorem exec_keepsMemory {i : Instr} {s t : State} (hstore : storeAddress s i = none)
    (h : exec i s = .next t) : KeepsMemoryBut [Config.kbsr, Config.kbdr] s t := by
  intro a ha
  obtain ⟨hkbsr, hkbdr⟩ : a ≠ Config.kbsr ∧ a ≠ Config.kbdr := by simpa using ha
  exact memoryChangesOnlyWhereStored i s t h a (by simp [hstore]) hkbsr hkbdr

/-- Settles O36: TRAP goes on with R7 linked, and the tables of what an instruction writes say the
rest. -/
theorem trapCompletes : Obligations.TrapCompletes := by
  intro s code hw hcome hstring
  obtain ⟨t, hexec, hlink⟩ := exec_trap_goes_on hw hcome hstring
  have hrow := exec_keeps hexec
  exact ⟨t, hexec, hlink, hrow.pc rfl, hrow.regs, exec_keepsMemory rfl hexec⟩

end Sys2Proof.Machine

/-! What an instruction can answer: it goes on, or it is one of the three that wait forever
(`60_exceptions.md` R226, `93_implementation_defined.md` U15, U16). -/

namespace Sys2Proof.Machine

/-! ## The three that can wait -/

theorem exec_getc_stuck {s : State} (h : s.ports.charToCome = false) :
    exec .getc s = .fault .inputNeverComes :=
  (getcService_eq s.saveReturn).trans (if_neg (ne_true_of_eq_false h))

/-- The prompt changes nothing about what is to come, so IN waits as GETC does. -/
theorem exec_inTrap_stuck {s : State} (h : s.ports.charToCome = false) :
    exec .inTrap s = .fault .inputNeverComes :=
  (inService_eq s.saveReturn).trans (if_neg (ne_true_of_eq_false h))

/-- Trap entry keeps R0, so the loop that decides is the one from R0 of the state before it
(`43_trap.md` R196). -/
theorem exec_puts_stuck_iff {s : State} (hw : s.mem.wf) : exec .puts s = .fault .stringNeverEnds ↔
    ∀ n t, ¬ PutsLoop n (s.reg 0) s.saveReturn t := by
  rw [← s.saveReturn_reg_other (q := 0) (by decide)]
  exact putsService_stuck_iff_loop (s := s.saveReturn) hw

/-! ## Every instruction goes on or waits -/

/-- Why an instruction that ends in `f` never completes: no character is to come, or the loop of PUTS has
no end (log entries 10 and 11). -/
def WaitsForever (i : Instr) (s : State) (f : Fault) : Prop :=
  (f = .inputNeverComes ∧ s.ports.charToCome = false ∧ (i = .getc ∨ i = .inTrap)) ∨
    (f = .stringNeverEnds ∧ i = .puts ∧ ∀ n t, ¬ PutsLoop n (s.reg 0) s.saveReturn t)

/-- A row of the opcode map goes on or waits forever. -/
theorem exec_row_next_or_waits {i : Instr} {s : State} (hrow : i.resolve = i) (hw : s.mem.wf) :
    (∃ t, exec i s = .next t) ∨ ∃ f, exec i s = .fault f ∧ WaitsForever i s f := by
  cases i with
  | getc =>
    cases hcome : s.ports.charToCome with
    | true => exact .inl ⟨_, exec_getc hcome⟩
    | false => exact .inr ⟨_, exec_getc_stuck hcome, .inl ⟨rfl, hcome, .inl rfl⟩⟩
  | inTrap =>
    cases hcome : s.ports.charToCome with
    | true => exact .inl ⟨_, exec_inTrap hcome⟩
    | false => exact .inr ⟨_, exec_inTrap_stuck hcome, .inl ⟨rfl, hcome, .inr rfl⟩⟩
  | puts =>
    obtain ⟨t, hnext, -⟩ | hstuck := stringService_cases putsChars s.saveReturn
    · exact .inl ⟨t, hnext⟩
    · exact .inr ⟨_, hstuck, .inr ⟨rfl, rfl, (exec_puts_stuck_iff hw).mp hstuck⟩⟩
  | putsp =>
    obtain ⟨t, hnext, -⟩ := putspService_next s.saveReturn hw
    exact .inl ⟨t, hnext⟩
  | trap code => exact absurd hrow (decodeTrap_ne_trap code code)
  | _ => exact .inl ⟨_, rfl⟩

/-- Every instruction goes on or waits forever as the row it resolves to. -/
theorem exec_next_or_waits (i : Instr) {s : State} (hw : s.mem.wf) :
    (∃ t, exec i s = .next t) ∨ ∃ f, exec i s = .fault f ∧ WaitsForever i.resolve s f := by
  rw [exec_resolve]
  exact exec_row_next_or_waits (resolve_resolve i) hw

/-- Settles O46: going on and waiting are the only two answers, and neither is a refusal. -/
theorem instructionsStopOnlyByWaiting : Obligations.InstructionsStopOnlyByWaiting := by
  intro i s hw
  obtain ⟨t, hnext⟩ | ⟨f, hfault, hwaits⟩ := exec_next_or_waits i hw
  · rw [hnext]
    exact ⟨nofun, nofun⟩
  · rw [hfault]
    refine ⟨nofun, fun g hg => ?_⟩
    obtain rfl := Host.Outcome.fault.inj hg
    exact hwaits

end Sys2Proof.Machine

/-! What boot loads and what it leaves alone, and that no step after boot takes an image
(`70_reset_and_hazards.md` R255 to R258). -/

namespace Sys2Proof.Machine

/-! ## The Words of an image file -/

theorem toNat_wordOfBytes (hi lo : Byte) :
    (wordOfBytes hi lo).toNat = 256 * hi.toNat + lo.toNat := by
  have happend : (wordOfBytes hi lo).toNat = hi.toNat <<< 8 ||| lo.toNat := BitVec.toNat_append hi lo
  rw [happend, ← Nat.shiftLeft_add_eq_or_of_lt lo.isLt, Nat.shiftLeft_eq]
  omega

/-- Whole pairs give one Word each, and a single byte after them gives none
(`70_reset_and_hazards.md` R257). -/
theorem wordsOfBytes_pairs (pairs : List (Byte × Byte)) {odd : List Byte} (hodd : odd.length ≤ 1) :
    wordsOfBytes ((pairs.flatMap fun p => [p.1, p.2]) ++ odd) =
      pairs.map fun p => wordOfBytes p.1 p.2 := by
  induction pairs with
  | nil =>
    match odd, hodd with
    | [], _ => rfl
    | [_], _ => rfl
  | cons p pairs ih => exact congrArg (wordOfBytes p.1 p.2 :: ·) ih

/-! ## Words stored one after the other -/

/-- Loading stores Word `k` at `k` past the first address, when that is an address: the later Words go
above it. -/
theorem Memory.storeFrom_at {ws : List Word} {m : Memory} {a k : Nat} (hm : m.wf)
    (hk : k < ws.length) (htop : a + k < 65536) : (m.storeFrom a ws).read (a + k) = ws[k] := by
  induction ws generalizing m a k with
  | nil => cases hk
  | cons w ws ih =>
    have ha : a < 65536 := by omega
    rw [Memory.storeFrom, if_pos ha]
    cases k with
    | zero =>
      exact (Memory.storeFrom_below ws _ (a + 1) a a.lt_succ_self).trans (m.read_write_same a w hm)
    | succ k =>
      have hshift : a + (k + 1) = a + 1 + k := by omega
      rw [hshift]
      exact ih (m.write_wf a w hm ha) (Nat.lt_of_succ_lt_succ hk) (hshift ▸ htop)

/-- Loading leaves every address past the last Word alone. -/
theorem Memory.storeFrom_above {ws : List Word} {m : Memory} {a b : Nat} (h : a + ws.length ≤ b) :
    (m.storeFrom a ws).read b = m.read b := by
  induction ws generalizing m a with
  | nil => rfl
  | cons w ws ih =>
    rw [List.length_cons] at h
    rw [Memory.storeFrom]
    split_ifs
    · rw [ih (by omega), Memory.read_write_other m w (by omega)]
    · rfl

/-! ## Boot steps that load -/

/-- An image with an origin is loaded, and taken off the list (`70_reset_and_hazards.md` R258). -/
theorem bootStep_image {s : State} {content : List Byte} {later : List ImageFile} {origin : Word}
    {ws : List Word} (himages : s.ports.images = .bytes content :: later)
    (hwords : wordsOfBytes content = origin :: ws) :
    bootStep s = .next { s with
      mem := s.mem.storeFrom origin.toNat ws, ports := { s.ports with images := later } } := by
  simp only [bootStep, himages, State.loadImage, hwords]
  rfl

/-- Settles O56: the step is a load of the pairs' Words from the origin, and the rules of such a load
say what each Word of memory becomes. -/
theorem bootLoadsBigEndianWords : Obligations.BootLoadsBigEndianWords := by
  intro s hi lo pairs odd later origin hboot hmem hodd himages
  have horigin : (wordOfBytes hi lo).toNat = origin := toNat_wordOfBytes hi lo
  have hnext := bootStep_image himages
    (congrArg (wordOfBytes hi lo :: ·) (wordsOfBytes_pairs pairs hodd))
  rw [horigin] at hnext
  refine ⟨_, (step_of_booting hboot).trans hnext, hboot, rfl, Memory.storeFrom_wf _ _ _ hmem,
    fun k hk htop => ?_, fun a ha => ?_, fun _ _ => rfl, rfl, rfl, rfl⟩
  · rw [Memory.storeFrom_at hmem (by rwa [List.length_map]) htop, List.getElem_map, toNat_wordOfBytes]
  · obtain hbelow | habove := ha
    · exact Memory.storeFrom_below _ _ _ _ hbelow
    · exact Memory.storeFrom_above (by rwa [List.length_map])

/-! ## No step after boot takes an image -/

@[simp] theorem State.sampleStop_images (s : State) :
    s.sampleStop.ports.images = s.ports.images := by
  unfold State.sampleStop
  split <;> rfl

@[simp] theorem State.afterFetch_images (s : State) :
    s.afterFetch.ports.images = s.ports.images :=
  s.afterRead_images s.pc

/-- A row of the opcode map leaves the images still to load alone: of the ports it uses at most the
console and the diagnostic channel. -/
theorem exec_row_images {i : Instr} {s t : State} (hrow : i.resolve = i) (h : exec i s = .next t) :
    t.ports.images = s.ports.images := by
  cases i with
  | addReg _ _ _ | addImm _ _ _ | andReg _ _ _ | andImm _ _ _ | notReg _ _ | lea _ _ | jmp _ | jsr _
  | jsrr _ | st _ _ | str _ _ _ | reserved8 _ | reservedD _ | out | halt | trapUnknown _ =>
    obtain rfl := Host.Outcome.next.inj h
    rfl
  | br _ _ =>
    obtain rfl := Host.Outcome.next.inj h
    split_ifs <;> rfl
  | ld _ _ | ldr _ _ _ | sti _ _ =>
    obtain rfl := Host.Outcome.next.inj h
    exact s.afterRead_images _
  | ldi _ _ =>
    obtain rfl := Host.Outcome.next.inj h
    exact (State.afterRead_images _ _).trans (s.afterRead_images _)
  | getc =>
    obtain rfl := getcService_next h
    rfl
  | inTrap =>
    obtain rfl := inService_next h
    rfl
  | puts | putsp => exact (stringService_frame h).images
  | trap code => exact absurd hrow (decodeTrap_ne_trap code code)

/-- A step that does not boot is the stop or one instruction, and neither takes an image. -/
theorem step_images {s t : State} (hrun : s.run ≠ .booting) (h : step s = .next t) :
    t.ports.images = s.ports.images := by
  obtain ⟨hboot, -⟩ | ⟨-, -, rfl⟩ | ⟨-, -, hexec⟩ := step_cases h
  · exact absurd hboot hrun
  · exact s.sampleStop_images
  · rw [exec_row_images (resolve_decodeWord _) hexec, State.afterFetch_images,
      State.sampleStop_images]

/-- Settles O59: a boot step starts the run, with no image left, or loads one and goes on booting; no
other step takes an image. -/
theorem bootExecutesNoInstruction : Obligations.BootExecutesNoInstruction := by
  refine ⟨fun s t hboot hstep => ?_, fun s t => step_images⟩
  rw [step_of_booting hboot] at hstep
  obtain ⟨hnone, rfl⟩ | ⟨_, _, _, _, -, -, rfl⟩ := bootStep_cases hstep
  · exact ⟨fun _ _ => rfl, rfl, rfl, rfl, fun _ => ⟨hnone, rfl⟩⟩
  · refine ⟨fun _ _ => rfl, rfl, rfl, rfl, fun hstarts => ?_⟩
    cases hboot.symm.trans hstarts

end Sys2Proof.Machine

/-! The decoder against the encoder, the don't-care bits and the opcode table
(`30_encoding.md` R82 to R91). -/

namespace Sys2Proof

/-! ## Decoding an instruction's own Word -/

/-- Every row's round trip, and TRAP's general spelling to the row of its code. -/
theorem decodeWord_encode {i : Instr} (h : i.wellFormed = true) : decodeWord (encode i) = i.resolve := by
  cases i with
  | addReg dr sr1 sr2 => exact Laws.RoundTrip.addReg dr sr1 sr2 h
  | addImm dr sr1 imm5 => exact Laws.RoundTrip.addImm dr sr1 imm5 h
  | andReg dr sr1 sr2 => exact Laws.RoundTrip.andReg dr sr1 sr2 h
  | andImm dr sr1 imm5 => exact Laws.RoundTrip.andImm dr sr1 imm5 h
  | notReg dr sr => exact Laws.RoundTrip.notReg dr sr h
  | br nzp off9 => exact Laws.RoundTrip.br nzp off9 h
  | jmp base => exact Laws.RoundTrip.jmp base h
  | jsr off11 => exact Laws.RoundTrip.jsr off11 h
  | jsrr base => exact Laws.RoundTrip.jsrr base h
  | ld dr off9 => exact Laws.RoundTrip.ld dr off9 h
  | ldi dr off9 => exact Laws.RoundTrip.ldi dr off9 h
  | ldr dr base off6 => exact Laws.RoundTrip.ldr dr base off6 h
  | lea dr off9 => exact Laws.RoundTrip.lea dr off9 h
  | st sr off9 => exact Laws.RoundTrip.st sr off9 h
  | sti sr off9 => exact Laws.RoundTrip.sti sr off9 h
  | str sr base off6 => exact Laws.RoundTrip.str sr base off6 h
  | trap code => exact Laws.RoundTrip.trap code h
  | reserved8 rest => exact Laws.RoundTrip.reserved8 rest h
  | reservedD rest => exact Laws.RoundTrip.reservedD rest h
  | getc => exact Laws.RoundTrip.getc h
  | out => exact Laws.RoundTrip.out h
  | puts => exact Laws.RoundTrip.puts h
  | inTrap => exact Laws.RoundTrip.inTrap h
  | putsp => exact Laws.RoundTrip.putsp h
  | halt => exact Laws.RoundTrip.halt h
  | trapUnknown code => exact Laws.RoundTrip.trapUnknown code h

theorem resolve_of_ne_trap {i : Instr} (h : ∀ code, i ≠ .trap code) : i.resolve = i := by
  cases i with
  | trap code => exact absurd rfl (h code)
  | _ => rfl

/-- Settles O2: an instruction's own Word decodes to the row it resolves to. -/
theorem decodeReversesEncode : Obligations.DecodeReversesEncode := by
  refine fun i hwf => ⟨fun hne => ?_, ?_⟩
  · rw [decodeWord_encode hwf, resolve_of_ne_trap hne]
  · rintro code rfl
    exact decodeWord_encode hwf

/-! ## The bits a field reads -/

/-- The mask `m` shows every bit of the field. -/
abbrev Covers (m : Word) (lo n : Nat) : Prop := field m lo n = BitVec.allOnes n

theorem field_and (a b : Word) (lo n : Nat) : field (a &&& b) lo n = field a lo n &&& field b lo n := by
  ext i hi
  simp [field]

/-- Masking loses nothing of a field the mask covers. -/
theorem Covers.field_and {m : Word} {lo n : Nat} (h : Covers m lo n) (w : Word) :
    field (w &&& m) lo n = field w lo n := by
  rw [Sys2Proof.field_and, h, BitVec.and_allOnes]

/-- Words that agree under a mask agree on every field it covers. -/
theorem Covers.field_eq {m w w' : Word} {lo n : Nat} (h : Covers m lo n) (heq : w &&& m = w' &&& m) :
    field w lo n = field w' lo n := by
  rw [← h.field_and w, heq, h.field_and]

/-- A Word that has the value `v` under a mask has `v`'s fields where the mask covers them. -/
theorem Covers.field_of_match {m v w : Word} {lo n : Nat} (h : Covers m lo n) (heq : w &&& m = v) :
    field w lo n = field v lo n := by
  rw [← h.field_and w, heq]

/-- A field placed where it was read is the Word with every other bit cleared. -/
theorem place_field (w : Word) (lo n : Nat) :
    place lo (field w lo n) = w &&& place lo (BitVec.allOnes n) := by
  apply BitVec.eq_of_getLsbD_eq
  intro i hi
  simp only [place, field, BitVec.getLsbD_and, BitVec.getLsbD_shiftLeft, BitVec.getLsbD_setWidth,
    BitVec.getLsbD_extractLsb', BitVec.getLsbD_allOnes]
  by_cases hlo : i < lo
  · simp [hlo]
  · rw [Nat.add_sub_cancel' (Nat.le_of_not_lt hlo)]
    ac_rfl

theorem place_of_field {w : Word} {lo n : Nat} {f : BitVec n} (h : field w lo n = f) :
    place lo f = w &&& place lo (BitVec.allOnes n) := by
  rw [← h, place_field]

/-! ## The canonical Word of what a Word decodes to -/

theorem wellFormed_decodeTrap (code : BitVec 8) : (decodeTrap code).wellFormed = true := by
  revert code
  decide

/-- What the decoder answers is an instruction of the machine (`30_encoding.md` R82). -/
theorem wellFormed_decodeWord (w : Word) : (decodeWord w).wellFormed = true := by
  unfold decodeWord
  cases Opcode.ofBits (opcodeField w) with
  | add | and | jsr => split_ifs <;> rfl
  | trap => exact wellFormed_decodeTrap _
  | _ => rfl

theorem encode_decodeTrap (code : BitVec 8) : encode (decodeTrap code) = encodeTrap code := by
  unfold decodeTrap
  split_ifs with h h h h h h
  iterate 6 next => rw [h]; rfl
  rfl

/-- The ones among the don't-care bits of an opcode's canonical Words (`30_encoding.md` R84). -/
def Opcode.filler : Opcode → Word
  | .not => 0x003F
  | _ => 0x0000

theorem field_opcode {w : Word} {op : Opcode} (h : Opcode.ofBits (opcodeField w) = op) :
    field w 12 4 = op.bits := by
  rw [← h, Opcode.bits_ofBits]
  rfl

/-- A selector bit that is not set is clear, so the Word shows nothing under its mask. -/
theorem and_place_bit_eq_zero {w : Word} {lo : Nat} (h : field w lo 1 ≠ 1) :
    w &&& place lo (BitVec.allOnes 1) = place lo 0#1 := by
  rw [← place_field, (BitVec.eq_zero_or_eq_one _).resolve_right h]

/-- A mask's bits that are clear in the Word may be left out of the mask. -/
theorem and_or_of_and_eq_zero {w b : Word} (a : Word) (h : w &&& b = 0) : w &&& (a ||| b) = w &&& a := by
  rw [BitVec.and_or_distrib_left, h]
  exact BitVec.or_zero

/-- Decoding keeps every used bit and encoding puts it back where it was; the don't-care bits become
the canonical ones. -/
theorem encode_decodeWord (w : Word) : encode (decodeWord w) =
    (w &&& usedBits w) ||| (Opcode.ofBits (opcodeField w)).filler := by
  unfold decodeWord usedBits
  cases hop : Opcode.ofBits (opcodeField w) with
  | add | and =>
    dsimp only
    split_ifs with hmode
    · have hset : place 5 1#1 = w &&& place 5 (BitVec.allOnes 1) := place_of_field hmode
      simp only [encode, withOpcode, place_of_field (field_opcode hop), hset, drField, sr1Field,
        imm5Field, regBits_regOfBits, place_field, ← BitVec.and_or_distrib_left]
      exact BitVec.or_zero.symm
    · have hclear : w &&& 0x0020 = 0 := and_place_bit_eq_zero hmode
      simp only [encode, withOpcode, place_of_field (field_opcode hop), drField, sr1Field, sr2Field,
        regBits_regOfBits, place_field, ← BitVec.and_or_distrib_left]
      exact (BitVec.or_zero.trans (and_or_of_and_eq_zero 0xFFC7 hclear)).symm
  | jsr =>
    dsimp only
    split_ifs with hlong
    · have hset : place 11 1#1 = w &&& place 11 (BitVec.allOnes 1) := place_of_field hlong
      simp only [encode, withOpcode, place_of_field (field_opcode hop), hset, off11Field, place_field,
        ← BitVec.and_or_distrib_left]
      exact BitVec.or_zero.symm
    · have hclear : w &&& 0x0800 = 0 := and_place_bit_eq_zero hlong
      simp only [encode, withOpcode, place_of_field (field_opcode hop), sr1Field, regBits_regOfBits,
        place_field, ← BitVec.and_or_distrib_left]
      exact (BitVec.or_zero.trans (and_or_of_and_eq_zero 0xF1C0 hclear)).symm
  | trap =>
    simp only [encode_decodeTrap, encodeTrap, trapField, withOpcode, place_of_field (field_opcode hop),
      place_field, ← BitVec.and_or_distrib_left]
    exact BitVec.or_zero.symm
  | not =>
    simp only [encode, withOpcode, place_of_field (field_opcode hop), drField, sr1Field,
      regBits_regOfBits, place_field, ← BitVec.and_or_distrib_left, ← BitVec.or_assoc]
    rfl
  | _ =>
    simp only [encode, withOpcode, place_of_field (field_opcode hop), nzpField, drField, sr1Field,
      off9Field, off6Field, regBits_regOfBits, place_field, ← BitVec.and_or_distrib_left]
    exact BitVec.or_zero.symm

/-- The canonical Word of what a Word decodes to decodes as the Word does. -/
theorem decodeWord_encode_decodeWord (w : Word) : decodeWord (encode (decodeWord w)) = decodeWord w := by
  rw [decodeWord_encode (wellFormed_decodeWord w), resolve_decodeWord]

theorem filler_and_usedBits (w : Word) :
    (Opcode.ofBits (opcodeField w)).filler &&& usedBits w = 0#16 := by
  unfold usedBits
  cases Opcode.ofBits (opcodeField w) with
  | not => dsimp only; decide
  | _ => exact BitVec.zero_and

/-- Settles O4: the canonical bits that encoding fills in are don't-care bits. -/
theorem encodeRestoresEveryUsedBit : Obligations.EncodeRestoresEveryUsedBit := by
  refine fun w => ⟨?_, wellFormed_decodeWord w⟩
  rw [encode_decodeWord, BitVec.and_or_distrib_right, filler_and_usedBits, BitVec.or_zero,
    BitVec.and_assoc, BitVec.and_self]

/-! ## The don't-care bits -/

/-- Every format uses the opcode. -/
theorem covers_opcode_usedBits (w : Word) : Covers (usedBits w) 12 4 := by
  unfold usedBits
  cases Opcode.ofBits (opcodeField w) with
  | add | and | jsr => dsimp only; split_ifs <;> decide
  | _ => dsimp only; decide

/-- The bits that tell a Word's format, opcode and selector, are among the bits it uses. -/
theorem usedBits_eq {w w' : Word} (h : w &&& usedBits w = w' &&& usedBits w) :
    usedBits w' = usedBits w := by
  have hop : opcodeField w = opcodeField w' := (covers_opcode_usedBits w).field_eq h
  unfold usedBits at h ⊢
  rw [← hop]
  cases hw : Opcode.ofBits (opcodeField w) with
  | add | and =>
    simp only [hw] at h ⊢
    have hmode : modeField w = modeField w' := by
      split_ifs at h <;> exact Covers.field_eq (by decide) h
    rw [hmode]
  | jsr =>
    simp only [hw] at h ⊢
    have hlong : longField w = longField w' := by
      split_ifs at h <;> exact Covers.field_eq (by decide) h
    rw [hlong]
  | _ => rfl

/-- Settles O3: Words that agree on the used bits have the same canonical Word. -/
theorem dontCareBitsAreIgnored : Obligations.DontCareBitsAreIgnored := by
  intro w w' h
  have hop : opcodeField w = opcodeField w' := (covers_opcode_usedBits w).field_eq h
  have hcanonical : encode (decodeWord w') = encode (decodeWord w) := by
    rw [encode_decodeWord, encode_decodeWord, usedBits_eq h, ← h, hop]
  rw [← decodeWord_encode_decodeWord w', hcanonical, decodeWord_encode_decodeWord]

/-! ## The reserved opcodes and the opcode table -/

/-- Settles O5: a Word's row tells its opcode bits, and the opcode alone tells the two rows. -/
theorem illegalExactlyAtReservedOpcodes : Obligations.IllegalExactlyAtReservedOpcodes := by
  refine fun w => ⟨⟨?_, fun h => ⟨field w 0 12, ?_⟩⟩, ⟨?_, fun h => ⟨field w 0 12, ?_⟩⟩⟩
  · rintro ⟨rest, h⟩
    exact opcodeField_of_decodeWord (congrArg Instr.opcode h)
  · rw [decodeWord, opcodeField, field, h]
    rfl
  · rintro ⟨rest, h⟩
    exact opcodeField_of_decodeWord (congrArg Instr.opcode h)
  · rw [decodeWord, opcodeField, field, h]
    rfl

/-- A Word whose bits the mask shows as `v`, the opcode among them, has `v`'s opcode. -/
theorem opcodeField_of_match {w m v : Word} (h : w &&& m = v) (hm : Covers m 12 4) :
    opcodeField w = opcodeField v := hm.field_of_match h

/-- Settles O6: the mask of each row shows the opcode, and its selector or trap code where the opcode
has several rows. -/
theorem everyTableRowDecodes : Obligations.EveryTableRowDecodes := by
  intro w dr sr1 sr2 off9 off6 imm5 code
  refine ⟨fun h => ?addReg, fun h => ?addImm, fun h => ?andReg, fun h => ?andImm, fun h => ?notReg,
    fun h => ?br, fun h => ?jmp, fun h => ?jsr, fun h => ?jsrr, fun h => ?ld, fun h => ?ldi,
    fun h => ?ldr, fun h => ?lea, fun h => ?st, fun h => ?sti, fun h => ?str, fun h => ?reserved8,
    fun h => ?reservedD, fun h => ?getc, fun h => ?out, fun h => ?puts, fun h => ?inTrap,
    fun h => ?putsp, fun h => ?halt, fun h hcode => ?trapUnknown⟩
  all_goals rw [decodeWord, opcodeField_of_match h (by decide)]
  case addReg | addImm | andReg | andImm =>
    rw [modeField, Covers.field_of_match (lo := 5) (n := 1) (by decide) h]
    rfl
  case jsr | jsrr =>
    rw [longField, Covers.field_of_match (lo := 11) (n := 1) (by decide) h]
    rfl
  case getc | out | puts | inTrap | putsp | halt =>
    rw [trapField, Covers.field_of_match (lo := 0) (n := 8) (by decide) h]
    rfl
  case trapUnknown =>
    refine Machine.decodeTrap_of_no_service (code := code) ?_
    bv_omega
  all_goals rfl

/-- Settles O1: each Word written out, decoded. -/
theorem specWordsDecode : Obligations.SpecWordsDecode := by
  unfold Obligations.SpecWordsDecode
  decide

end Sys2Proof

/-! The invariant of the block, the growth of the port transactions, and how a run ends
(`60_exceptions.md`, `70_reset_and_hazards.md`). -/

namespace Sys2Proof.Machine

/-! ## What every instruction but a reserved opcode keeps -/

/-- From `s` to `t` memory stays canonical, transactions are only added, and no fault is recorded. -/
structure Extends (s t : State) : Prop where
  wf : s.mem.wf → t.mem.wf
  faultInfo : t.faultInfo = s.faultInfo
  trace : ∃ es, t.ports.trace = s.ports.trace ++ es

namespace Extends

variable {s t u : State}

theorem trans (h : Extends s t) (k : Extends t u) : Extends s u where
  wf hw := k.wf (h.wf hw)
  faultInfo := k.faultInfo.trans h.faultInfo
  trace := by
    obtain ⟨es, hes⟩ := h.trace
    obtain ⟨fs, hfs⟩ := k.trace
    exact ⟨es ++ fs, by rw [hfs, hes, List.append_assoc]⟩

/-- An update of neither memory, the ports nor the fault record. -/
theorem of_eq (hmem : t.mem = s.mem) (hports : t.ports = s.ports) (hfault : t.faultInfo = s.faultInfo) :
    Extends s t where
  wf hw := hmem ▸ hw
  faultInfo := hfault
  trace := ⟨[], by rw [hports, List.append_nil]⟩

theorem of_scanFrame (h : ScanFrame s t) : Extends s t := ⟨h.wf, h.faultInfo, h.trace⟩

theorem afterRead (s : State) (a : Word) : Extends s (s.afterRead a) :=
  ⟨s.afterRead_wf a, s.afterRead_faultInfo a, s.afterRead_trace a⟩

theorem memWrite (s : State) (a v : Word) : Extends s (s.memWrite a v) :=
  ⟨s.memWrite_wf a v, rfl, [], (List.append_nil _).symm⟩

theorem setPorts (s : State) {p : Ports} {es : List PortEvent} (h : p.trace = s.ports.trace ++ es) :
    Extends s (s.setPorts p) := ⟨id, rfl, es, h⟩

theorem writeResult (s : State) (dr : Reg) (v : Word) : Extends s (s.writeResult dr v) :=
  of_eq rfl rfl rfl

theorem saveReturn (s : State) : Extends s s.saveReturn := of_eq rfl rfl rfl

theorem writeChars (s : State) (bs : List Byte) : Extends s (s.writeChars bs) :=
  setPorts s (Ports.charsWritten_trace _ bs)

theorem charRead (s : State) : Extends s (s.setPorts s.ports.charRead) :=
  setPorts s (Ports.charRead_trace _)

theorem emitDiag (s : State) (e : DiagEvent) : Extends s (s.emitDiag e) :=
  setPorts s (Ports.diagEmitted_trace _ e)

theorem promptReadEcho (s : State) : Extends s s.promptReadEcho :=
  ((writeChars s _).trans (charRead _)).trans (writeChars _ _)

theorem sampleStop (s : State) : Extends s s.sampleStop where
  wf hw := by rwa [State.sampleStop_mem]
  faultInfo := s.sampleStop_faultInfo
  trace := ⟨[], by rw [State.sampleStop_trace, List.append_nil]⟩

theorem afterFetch (s : State) : Extends s s.afterFetch :=
  (afterRead s s.pc).trans (of_eq rfl rfl rfl)

end Extends

/-- A row of the opcode map changes memory by stores and the ports by transactions, and only the two
reserved opcodes record a fault (`10_state.md` R34). -/
theorem exec_row_extends {i : Instr} {s t : State} (hrow : i.resolve = i) (h : exec i s = .next t)
    (h8 : i.opcode ≠ .reserved8) (hD : i.opcode ≠ .reservedD) : Extends s t := by
  cases i with
  | reserved8 _ => exact absurd rfl h8
  | reservedD _ => exact absurd rfl hD
  | addReg _ _ _ | addImm _ _ _ | andReg _ _ _ | andImm _ _ _ | notReg _ _ | lea _ _ | jmp _ | jsr _
  | jsrr _ =>
    obtain rfl := Host.Outcome.next.inj h
    exact .of_eq rfl rfl rfl
  | br _ _ =>
    obtain rfl := Host.Outcome.next.inj h
    split_ifs <;> exact .of_eq rfl rfl rfl
  | ld _ _ | ldr _ _ _ =>
    obtain rfl := Host.Outcome.next.inj h
    exact (Extends.afterRead s _).trans (.writeResult _ _ _)
  | ldi _ _ =>
    obtain rfl := Host.Outcome.next.inj h
    exact ((Extends.afterRead s _).trans (.afterRead _ _)).trans (.writeResult _ _ _)
  | st _ _ | str _ _ _ =>
    obtain rfl := Host.Outcome.next.inj h
    exact .memWrite s _ _
  | sti _ _ =>
    obtain rfl := Host.Outcome.next.inj h
    exact (Extends.afterRead s _).trans (.memWrite _ _ _)
  | getc =>
    obtain rfl := getcService_next h
    exact ((Extends.saveReturn s).trans (.charRead _)).trans (.writeResult _ _ _)
  | inTrap =>
    obtain rfl := inService_next h
    exact ((Extends.saveReturn s).trans (.promptReadEcho _)).trans (.writeResult _ _ _)
  | out =>
    obtain rfl := Host.Outcome.next.inj h
    exact (Extends.saveReturn s).trans (.writeChars _ _)
  | puts | putsp => exact (Extends.saveReturn s).trans (.of_scanFrame (stringService_frame h))
  | halt =>
    obtain rfl := Host.Outcome.next.inj h
    exact ((Extends.saveReturn s).trans (.emitDiag _ _)).trans (.of_eq rfl rfl rfl)
  | trapUnknown _ =>
    obtain rfl := Host.Outcome.next.inj h
    exact (Extends.saveReturn s).trans (.emitDiag _ _)
  | trap code => exact absurd hrow (decodeTrap_ne_trap code code)

/-! ## The reserved opcodes -/

/-- The two opcode numbers without a meaning (`30_encoding.md` R89). -/
def IsReserved (opcode : BitVec 4) : Prop := opcode = 0x8 ∨ opcode = 0xD

/-- A reserved opcode uses every bit of its Word, so the Word is canonical. -/
theorem encode_decodeWord_of_reserved {w : Word} (h : IsReserved (w.extractLsb' 12 4)) :
    encode (decodeWord w) = w := by
  have hop : Opcode.ofBits (opcodeField w) = .reserved8 ∨ Opcode.ofBits (opcodeField w) = .reservedD :=
    h.imp (congrArg Opcode.ofBits) (congrArg Opcode.ofBits)
  rw [encode_decodeWord, usedBits]
  obtain hop | hop := hop
  all_goals
    rw [hop]
    exact BitVec.or_zero.trans BitVec.and_allOnes

/-- Executing what a Word with a reserved opcode decodes to records that Word
(`60_exceptions.md` R222). -/
theorem exec_decodeWord_of_reserved {w : Word} (h : IsReserved (w.extractLsb' 12 4)) (s : State) :
    exec (decodeWord w) s = .next (s.illegalOpcode w) := by
  have hword := encode_decodeWord_of_reserved h
  obtain ⟨h8, hD⟩ := illegalExactlyAtReservedOpcodes w
  obtain ⟨rest, hrow⟩ | ⟨rest, hrow⟩ := h.imp h8.mpr hD.mpr
  all_goals
    rw [hrow] at hword ⊢
    exact congrArg (fun ir => Host.Outcome.next (s.illegalOpcode ir)) hword

/-- A Word of an opcode and all its other twelve bits. -/
theorem withOpcode_place (op : Opcode) (rest : BitVec 12) :
    withOpcode op (place 0 rest) = (op.bits ++ rest : BitVec (4 + 12)) := by
  apply BitVec.eq_of_getLsbD_eq
  intro i hi
  rw [BitVec.getLsbD_append]
  by_cases hlow : i < 12
  · simp [withOpcode, place, hlow, hi]
  · have hrest : rest.getLsbD i = false := BitVec.getLsbD_of_ge rest i (Nat.le_of_not_lt hlow)
    simp [withOpcode, place, hlow, hi, hrest]

/-- The fault record of a reserved opcode's own Word. -/
theorem State.illegalOpcode_withOpcode (s : State) (op : Opcode) (rest : BitVec 12) :
    (s.illegalOpcode (withOpcode op (place 0 rest))).faultInfo =
      some ⟨.illegalOpcode, op.bits, (op.bits ++ rest : BitVec (4 + 12)), s.pc - 1⟩ := by
  have hop : (withOpcode op (place 0 rest)).extractLsb' 12 4 = op.bits :=
    opcodeField_withOpcode op _ (field_place_apart 0 12 4 rest (.inl (by decide)))
  rw [State.illegalOpcode_faultInfo, hop, withOpcode_place]

/-- Settles O38: the record is that of the opcode's own Word. -/
theorem reservedOpcodesFault : Obligations.ReservedOpcodesFault :=
  fun s rest => ⟨_, _, rfl, rfl, s.illegalOpcode_withOpcode .reserved8 rest,
    s.illegalOpcode_withOpcode .reservedD rest, rfl, rfl, rfl, rfl⟩

theorem step_of_terminal {s : State} (h : s.run = .halted ∨ s.run = .faulted ∨ s.run = .stopped) :
    step s = .fault (.notRunning s.run) := by
  rcases h with h | h | h <;> simp only [step, State.turn, h]

/-- Settles O50: the turn of each of the three run states is the fault that names it. -/
theorem terminalStatesEnableNoStep : Obligations.TerminalStatesEnableNoStep := fun _ => step_of_terminal

/-- Settles O39: the step records the fetched Word, and FAULTED has no step. -/
theorem fetchedReservedOpcodeEndsTheRun : Obligations.FetchedReservedOpcodeEndsTheRun := by
  intro s hrun hstop hreserved
  have hstep := step_of_running hrun hstop
  rw [exec_decodeWord_of_reserved hreserved] at hstep
  refine ⟨_, hstep, rfl, ?_, ?_, fun r _ => ?_, fun _ _ => rfl, ?_, step_of_terminal (.inr (.inl rfl))⟩
  · rw [State.illegalOpcode_pc, State.afterFetch_pc, State.sampleStop_pc]
  · rw [State.illegalOpcode_cond, State.afterFetch_cond, State.sampleStop_cond]
  · rw [State.illegalOpcode_reg, State.afterFetch_reg, State.sampleStop_reg]
  · rw [State.illegalOpcode_faultInfo, State.afterFetch_pc, State.sampleStop_pc, BitVec.add_sub_cancel]

/-! ## What a decoded Word and a step can do -/

/-- Everything executing a decoded Word can do to the fault record and to `run`: a reserved opcode
records the Word, HALT ends the run, and the others keep both. -/
theorem exec_decodeWord_cases {w : Word} {s t : State} (h : exec (decodeWord w) s = .next t) :
    (IsReserved (w.extractLsb' 12 4) ∧ t = s.illegalOpcode w) ∨
      (Extends s t ∧ (t.run = s.run ∨ decodeWord w = .halt)) := by
  by_cases hreserved : IsReserved (w.extractLsb' 12 4)
  · rw [exec_decodeWord_of_reserved hreserved] at h
    exact .inl ⟨hreserved, (Host.Outcome.next.inj h).symm⟩
  · have h8 : (decodeWord w).opcode ≠ .reserved8 := fun hop =>
      hreserved (.inl (opcodeField_of_decodeWord hop))
    have hD : (decodeWord w).opcode ≠ .reservedD := fun hop =>
      hreserved (.inr (opcodeField_of_decodeWord hop))
    refine .inr ⟨exec_row_extends (resolve_decodeWord w) h h8 hD, ?_⟩
    obtain hkeep | ⟨-, hhalt⟩ | ⟨-, hop⟩ := exec_row_run (resolve_decodeWord w) h
    · exact .inl hkeep
    · exact .inr hhalt
    · exact absurd hop (not_or.mpr ⟨h8, hD⟩)

/-- Sampling the stop request and the fetch poll the keyboard at most. -/
theorem Extends.fetched (s : State) : Extends s s.sampleStop.afterFetch :=
  (Extends.sampleStop s).trans (.afterFetch _)

/-- Settles O53: no operation of a step takes a transaction back. -/
theorem portTraceOnlyGrows : Obligations.PortTraceOnlyGrows := by
  intro s t hstep
  obtain ⟨-, hboot⟩ | ⟨-, -, rfl⟩ | ⟨-, -, hexec⟩ := step_cases hstep
  · obtain ⟨-, rfl⟩ | ⟨_, _, _, _, -, -, rfl⟩ := bootStep_cases hboot
    all_goals exact ⟨[], (List.append_nil _).symm⟩
  · exact (Extends.sampleStop s).trace
  · obtain ⟨-, rfl⟩ | ⟨hextends, -⟩ := exec_decodeWord_cases hexec
    · exact (Extends.fetched s).trace
    · exact ((Extends.fetched s).trans hextends).trace

/-! ## The invariant -/

/-- Outside FAULTED there is no fault record. -/
theorem State.Inv.faultInfo_eq_none {s : State} (h : s.Inv) (hrun : s.run ≠ .faulted) :
    s.faultInfo = none :=
  Option.not_isSome_iff_eq_none.mp fun hsome => hrun (h.fault_iff.mpr hsome)

/-- Outside FAULTED, the invariant is canonical memory, no fault record, and the clauses on STOPPED and
HALTED. -/
theorem State.Inv.of_not_faulted {s : State} (hw : s.mem.wf) (hrun : s.run ≠ .faulted)
    (hfault : s.faultInfo = none) (hstop : s.run = .stopped → s.stopReq = true)
    (hreturn : s.run = .halted → s.reg 7 = s.pc)
    (hnotice : s.run = .halted → s.ports.trace.getLast? = some (.diag .haltNotice)) : s.Inv where
  mem_wf := hw
  fault_iff := iff_of_false hrun (by simp [hfault])
  fault_genuine f hf := by
    rw [hfault] at hf
    cases hf
  stop_requested := hstop
  halt_return := hreturn
  halt_notice := hnotice

/-- Before the run has ended, the invariant is canonical memory and no fault record. -/
theorem State.Inv.of_live {s : State} (hw : s.mem.wf) (hlive : s.run = .booting ∨ s.run = .running)
    (hfault : s.faultInfo = none) : s.Inv := by
  refine .of_not_faulted hw ?_ hfault ?_ ?_ ?_
  all_goals
    obtain hrun | hrun := hlive
    all_goals simp [hrun]

/-- Settles O55: reset leaves an empty memory and the block booting. -/
theorem resetMeetsInvariant : Obligations.ResetMeetsInvariant :=
  fun _ => .of_live ⟨.nil, nofun⟩ (.inl rfl) rfl

/-- The fault of a reserved opcode leaves the record the invariant asks for. -/
theorem State.Inv.illegalOpcode {s : State} {ir : Word} (hw : s.mem.wf)
    (h : IsReserved (ir.extractLsb' 12 4)) : (s.illegalOpcode ir).Inv where
  mem_wf := hw
  fault_iff := iff_of_true rfl rfl
  fault_genuine f hf := by
    obtain rfl := Option.some.inj hf
    exact ⟨⟨rfl, h⟩, (BitVec.sub_add_cancel s.pc 1).symm⟩
  stop_requested := nofun
  halt_return := nofun
  halt_notice := nofun

/-- HALT leaves the return address and the notice the invariant asks for. -/
theorem State.Inv.halt {s t : State} (hw : s.mem.wf) (hfault : s.faultInfo = none)
    (h : exec .halt s = .next t) : t.Inv := by
  obtain rfl := Host.Outcome.next.inj h
  exact .of_not_faulted hw nofun hfault nofun (fun _ => s.saveReturn_reg7)
    (fun _ => List.getLast?_concat)

/-- An instruction the decoder answers, executed in a running state, leaves the invariant. -/
theorem State.Inv.exec_decodeWord {w : Word} {s t : State} (hw : s.mem.wf) (hrun : s.run = .running)
    (hfault : s.faultInfo = none) (h : exec (decodeWord w) s = .next t) : t.Inv := by
  obtain ⟨hreserved, rfl⟩ | ⟨hextends, hkeep | hhalt⟩ := exec_decodeWord_cases h
  · exact .illegalOpcode hw hreserved
  · exact .of_live (hextends.wf hw) (.inr (hkeep.trans hrun)) (hextends.faultInfo.trans hfault)
  · exact .halt hw hfault (hhalt ▸ h)

/-- Settles O52: a boot step, the stop and an instruction each leave the invariant. -/
theorem stepKeepsInvariant : Obligations.StepKeepsInvariant := by
  intro s t hinv hstep
  obtain ⟨hrun, hboot⟩ | ⟨hrun, hstop, rfl⟩ | ⟨hrun, -, hexec⟩ := step_cases hstep
  all_goals have hfault : s.faultInfo = none := hinv.faultInfo_eq_none (by simp [hrun])
  · obtain ⟨-, rfl⟩ | ⟨_, _, _, _, -, -, rfl⟩ := bootStep_cases hboot
    · exact .of_live hinv.mem_wf (.inr rfl) hfault
    · exact .of_live (Memory.storeFrom_wf _ _ _ hinv.mem_wf) (.inl hrun) hfault
  · obtain ⟨hwf, hkeep, -⟩ := Extends.sampleStop s
    exact .of_not_faulted (hwf hinv.mem_wf) nofun (hkeep.trans hfault) (fun _ => hstop) nofun nofun
  · obtain ⟨hwf, hkeep, -⟩ := Extends.fetched s
    refine .exec_decodeWord (hwf hinv.mem_wf) ?_ (hkeep.trans hfault) hexec
    rw [State.afterFetch_run, State.sampleStop_run, hrun]

end Sys2Proof.Machine

/-! Canonical memories, scripted input, and the strings of PUTS and PUTSP (`20_memory.md` R50 to R54,
`43_trap.md` R196, R199). -/

namespace Sys2Proof.Machine

/-! ## Canonical memories -/

/-- An address that reads as anything but an unlisted one is listed with what it reads as. -/
theorem Memory.mem_of_read_ne {m : Memory} {a : Nat} (h : m.read a ≠ Memory.unlisted) :
    (a, m.read a) ∈ m := by
  induction m with
  | nil => exact absurd rfl h
  | cons c rest ih =>
    obtain ⟨k, v⟩ := c
    rw [Memory.read] at h ⊢
    split_ifs at h ⊢ with hk
    · rw [hk]
      exact List.mem_cons_self
    · exact List.mem_cons_of_mem _ (ih h)

/-- What a canonical memory lists is what it reads. -/
theorem Memory.mem_iff {m : Memory} (hm : m.wf) {c : Nat × Word} :
    c ∈ m ↔ m.read c.1 = c.2 ∧ c.2 ≠ Memory.unlisted := by
  constructor
  · intro hc
    exact ⟨Memory.read_of_mem hm hc, (hm.2 c hc).2⟩
  · rintro ⟨hread, hlisted⟩
    have hc := Memory.mem_of_read_ne (m := m) (a := c.1) (hread ▸ hlisted)
    rwa [hread] at hc

/-- Settles O25: two canonical memories that read alike list the same entries, and both in rising
order. -/
theorem canonicalMemoryIsUnique : Obligations.CanonicalMemoryIsUnique := by
  intro m m' hm hm' hread
  have hmem (c : Nat × Word) : c ∈ m ↔ c ∈ m' := by
    rw [Memory.mem_iff hm, Memory.mem_iff hm', hread]
  have hnodup {l : Memory} (hl : l.wf) : l.Nodup :=
    hl.1.imp fun hlt heq => Nat.ne_of_lt hlt (congrArg Prod.fst heq)
  have hperm : m.Perm m' := (List.perm_ext_iff_of_nodup (hnodup hm) (hnodup hm')).mpr hmem
  exact hperm.eq_of_pairwise (fun c d _ _ hcd hdc => absurd hcd (Nat.lt_asymm hdc)) hm.1 hm'.1

/-! ## Scripted input -/

/-- With a character to come, a scripted answer is the host's answer (log entries 8, 9). -/
theorem Ports.pollAnswer_of_script {p : Ports} {answer : Bool} {later : List Bool} {c : Byte}
    {cs : List Byte} (hpolls : p.polls = answer :: later) (hkeys : p.keys = c :: cs) :
    p.pollAnswer = answer := by
  simp [Ports.pollAnswer, Ports.charToCome, Ports.pollDraw, hpolls, hkeys]

/-- Settles O22: the poll uses up the scripted answer, and the scripted character after a true one. -/
theorem scriptedInputArrivesInOrder : Obligations.ScriptedInputArrivesInOrder := by
  intro s answer later c cs hw hpolls hkeys
  have hanswer : s.ports.pollAnswer = answer := Ports.pollAnswer_of_script hpolls hkeys
  have hkeys' : s.ports.polled.keys = c :: cs := hkeys
  obtain ⟨hchar, hrest⟩ := Ports.charRead_of_key hkeys'
  have hlater : s.ports.polled.polls = later := by rw [Ports.polled_polls, hpolls, List.tail_cons]
  simp only [State.memRead_kbsr s hw, State.afterRead_kbsr, s.pollKeyboard_ports,
    s.pollKeyboard_word_kbdr hw, hanswer]
  cases answer with
  | false => exact ⟨hlater, nofun, fun _ => ⟨rfl, hkeys'⟩⟩
  | true => exact ⟨hlater, fun _ => ⟨rfl, congrArg zext8 hchar, hrest⟩, nofun⟩

/-! ## PUTS and PUTSP -/

/-- Characters written extend the frame's events. -/
theorem ServiceFrame.writeChars {written : List Reg} {es : List PortEvent} {s t : State}
    (h : ServiceFrame written es s t) (bs : List Byte) :
    ServiceFrame written (es ++ bs.map .writeChar) s (t.writeChars bs) :=
  h.setPorts (t.ports.charsWritten_trace bs)

/-- Settles O29: a string clear of KBSR is written, and any other loop is the one the rounds decide. -/
theorem putsWritesTheString : Obligations.PutsWritesTheString := by
  refine ⟨fun s ws hstring => ?_, fun s t n hw hloop => ?_, fun s hw => (exec_puts_stuck_iff hw).mpr⟩
  · have hframe := s.saveReturn_serviceFrame.writeChars (ws.map lowByte)
    rw [List.map_map] at hframe
    exact ⟨_, exec_puts_string hstring, rfl, rfl, hframe⟩
  · rw [← s.saveReturn_reg_other (q := 0) (by decide)] at hloop
    exact (putsService_next_iff (s := s.saveReturn) hw).mpr ⟨n + 1, (putsLoop_iff.mp hloop).1⟩

/-- A packed string stands where it stood as long as no Word changes. -/
theorem PutspString.of_word_eq {s t : State} (hword : ∀ a, t.word a = s.word a) {ws : List Word}
    {a : Word} (h : PutspString s a ws) : PutspString t a ws := by
  induction ws generalizing a with
  | nil =>
    obtain ⟨ha, hend⟩ := h
    exact ⟨ha, hword a ▸ hend⟩
  | cons w ws ih =>
    obtain ⟨ha, hw, hne, hrest⟩ := h
    exact ⟨ha, (hword a).trans hw, hne, ih hrest⟩

/-- PUTSP after trap entry meets the packed string that stood at R0 before it. -/
theorem exec_putsp_string {s : State} {ws : List Word} (h : PutspString s (s.reg 0) ws) :
    exec .putsp s = .next (s.saveReturn.writeChars (ws.flatMap packedChars)) := by
  have hr0 : s.saveReturn.reg 0 = s.reg 0 := s.saveReturn_reg_other (by decide)
  exact putspService_string (hr0 ▸ h.of_word_eq s.saveReturn_word)

/-- The transactions of a packed Word: its low byte, and its high byte unless it is zero. -/
theorem map_writeChar_packedChars (w : Word) : (packedChars w).map PortEvent.writeChar =
    .writeChar (lowByte w) :: if highByte w = 0 then [] else [.writeChar (highByte w)] := by
  unfold packedChars
  split_ifs <;> rfl

/-- The loop of PUTSP ends where its service ends, since a loop has one end. -/
theorem putspService_of_loop {n : Nat} {s t : State} (hw : s.mem.wf)
    (h : PutspLoop n (s.reg 0) s t) : putspService s = .next t := by
  obtain ⟨u, hnext, hended⟩ := putspService_next s hw
  rw [hnext, scan_ended_unique hended (putspLoop_scan h)]

/-- Settles O31: a packed string clear of KBSR is written, and any other loop ends as its service. -/
theorem putspWritesThePackedString : Obligations.PutspWritesThePackedString := by
  refine ⟨fun s ws hstring => ?_, fun s t n hw hloop => ?_⟩
  · have hframe := s.saveReturn_serviceFrame.writeChars (ws.flatMap packedChars)
    simp only [List.map_flatMap, map_writeChar_packedChars] at hframe
    exact ⟨_, exec_putsp_string hstring, rfl, rfl, hframe⟩
  · rw [← s.saveReturn_reg_other (q := 0) (by decide)] at hloop
    exact putspService_of_loop (s := s.saveReturn) hw hloop

/-- Settles O32: PUTSP's scan ends at KBSR at the latest, and a scan keeps all but the keyboard's
Words and the ports. -/
theorem putspAlwaysCompletes : Obligations.PutspAlwaysCompletes := by
  intro s hw
  obtain ⟨t, hnext, -⟩ := putspService_next s.saveReturn hw
  have hframe := stringService_frame hnext
  have hrow := exec_keeps (i := .putsp) (s := s) hnext
  exact ⟨t, hnext, hrow.pc rfl, hrow.cond rfl, hframe.run,
    (hframe.reg 7).trans s.saveReturn_reg7, hrow.regs, exec_keepsMemory (i := .putsp) rfl hnext⟩

/-! ## IN, HALT and the codes without a service -/

/-- What IN has done before it keeps the character: three groups of transactions, in order
(`43_trap.md` R197). -/
theorem State.promptReadEcho_serviceFrame (s : State) : ServiceFrame [7]
    (Config.inPrompt.map .writeChar ++ [.readChar s.ports.nextChar, .writeChar s.ports.nextChar]) s
    s.saveReturn.promptReadEcho := by
  have hread := (s.saveReturn_serviceFrame.writeChars Config.inPrompt).setPorts (Ports.charRead_trace _)
  have hecho := hread.writeChars [s.ports.nextChar]
  rw [List.nil_append, List.append_assoc] at hecho
  exact hecho

/-- Settles O30: IN shows its prompt, then reads the next character, echoes it and keeps it in R0. -/
theorem inPromptsReadsAndEchoes : Obligations.InPromptsReadsAndEchoes := by
  intro s hcome
  obtain ⟨hresult, hflags, hsign⟩ := s.saveReturn.promptReadEcho.charToR0_result s.ports.nextChar
  exact ⟨_, _, exec_inTrap hcome, hresult, hflags, hsign, rfl,
    s.promptReadEcho_serviceFrame.charToR0 _, fun _ _ => Ports.charRead_of_key⟩

/-- A service that writes `run` stays within the frame. -/
theorem ServiceFrame.setRun {written : List Reg} {es : List PortEvent} {s t : State}
    (h : ServiceFrame written es s t) (r : RunState) : ServiceFrame written es s (t.setRun r) where
  link := h.link
  regs := h.regs
  pc := h.pc
  mem := h.mem
  fault := h.fault
  stop := h.stop
  trace := h.trace

/-- An event of the diagnostic channel after trap entry. -/
theorem State.emitDiag_serviceFrame (s : State) (e : DiagEvent) :
    ServiceFrame [7] [.diag e] s (s.saveReturn.emitDiag e) :=
  s.saveReturn_serviceFrame.setPorts (s.ports.diagEmitted_trace e)

/-- Settles O33: HALT emits its notice and writes `run`. -/
theorem haltEndsTheRun : Obligations.HaltEndsTheRun := fun s =>
  have hexec : exec .halt s = .next ((s.saveReturn.emitDiag .haltNotice).setRun .halted) := rfl
  ⟨_, hexec, rfl, rfl, (exec_keeps hexec).output rfl, (s.emitDiag_serviceFrame _).setRun _⟩

/-- Settles O34: a code without a service emits its event only. -/
theorem unknownTrapIsLoggedAndSkipped : Obligations.UnknownTrapIsLoggedAndSkipped := fun s code _ =>
  have hexec : exec (.trapUnknown code) s = .next (s.saveReturn.emitDiag (.unknownTrap code)) := rfl
  ⟨_, hexec, rfl, rfl, (exec_keeps hexec).output rfl, s.emitDiag_serviceFrame _⟩

/-- Settles O37: GETC and IN wait, and TRAP in its general spelling is the row of its code. -/
theorem inputEndLeavesGetcAndInWaiting : Obligations.InputEndLeavesGetcAndInWaiting := fun s hend =>
  have hgetc := exec_getc_stuck (s := s) hend
  have hin := exec_inTrap_stuck (s := s) hend
  ⟨hgetc, hin, (exec_trap 0x20 s).trans hgetc, (exec_trap 0x23 s).trans hin⟩

end Sys2Proof.Machine

/-! BR and JSRR (`41_control.md`). -/

namespace Sys2Proof.Machine

/-- The mask meets a condition exactly when it has the condition's own bit (decision D4). -/
theorem condMeets_iff (nzp : BitVec 3) (c : Cond) : condMeets nzp c = true ↔
    (nzp.getLsbD 2 = true ∧ c = .negative) ∨ (nzp.getLsbD 1 = true ∧ c = .zero) ∨
      (nzp.getLsbD 0 = true ∧ c = .positive) := by
  cases c <;> revert nzp <;> decide

/-- Settles O12: BR moves `pc` or does nothing, by its mask. -/
theorem brFollowsTheConditionMask : Obligations.BrFollowsTheConditionMask := by
  intro s nzp off9 taken
  have hmeets : condMeets nzp s.cond = true ↔ taken := condMeets_iff nzp s.cond
  refine ⟨_, rfl, fun htaken => ?_, fun hnot => ?_⟩
  · rw [if_pos (hmeets.mpr htaken)]
    exact s.setPc_goesTo _
  · rw [if_neg (mt hmeets.mp hnot)]
    exact s.setPc_goesTo s.pc

/-- Settles O15: JSRR reads its base after the save of R7, which changes R7 only. -/
theorem jsrrLinksBeforeItReadsTheBase : Obligations.JsrrLinksBeforeItReadsTheBase := by
  intro s base
  have transfer := s.saveReturn.setPc_goesTo (s.saveReturn.reg base)
  refine ⟨_, rfl, transfer.reg7_of_saveReturn, fun hbase => ?_, fun hbase => ?_⟩
  · rw [← s.saveReturn_reg_other hbase]
    exact transfer.of_saveReturn
  · subst hbase
    exact s.saveReturn_reg7 ▸ transfer.of_saveReturn

end Sys2Proof.Machine

/-! The stop request, reset, the exit codes, and the clipping of an image at the top of memory
(`10_state.md` R40, `70_reset_and_hazards.md`). -/

namespace Sys2Proof.Machine

/-! ## The stop request -/

/-- The level sampled is the one driven at the boundary, else the last one, and a driven level is used
up (log entry 16). -/
theorem State.sampleStop_eq (s : State) : s.sampleStop =
    { s with
      stopReq := s.ports.stopLevels.headD s.stopReq
      ports := { s.ports with stopLevels := s.ports.stopLevels.tail } } := by
  unfold State.sampleStop
  split
  · next level rest hlevels => rw [hlevels, List.headD_cons, List.tail_cons]
  · next hlevels =>
    have hports : { s.ports with stopLevels := [] } = s.ports := by rw [← hlevels]
    rw [hlevels, List.headD_nil, List.tail_nil, hports]

/-- The level `b` is driven at this boundary, or none is and the last one was `b`. -/
theorem headD_stopLevels {s : State} {b : Bool}
    (h : (∃ later, s.ports.stopLevels = b :: later) ∨ (s.ports.stopLevels = [] ∧ s.stopReq = b)) :
    s.ports.stopLevels.headD s.stopReq = b := by
  obtain ⟨later, hlevels⟩ | ⟨hlevels, hreq⟩ := h
  · rw [hlevels, List.headD_cons]
  · rw [hlevels, List.headD_nil, hreq]

theorem step_of_stop {s : State} (hrun : s.run = .running) (hstop : s.sampleStop.stopReq = true) :
    step s = .next (s.sampleStop.setRun .stopped) := by
  rw [step, s.turn_stop hrun hstop]

/-- Settles O49: the sampled level decides between the stop and the fetch. -/
theorem stopRequestEndsTheRunBeforeTheFetch : Obligations.StopRequestEndsTheRunBeforeTheFetch := by
  refine fun s hrun => ⟨fun hset => ?_, fun hclear => ?_⟩
  · have hstop : s.sampleStop.stopReq = true := by rw [s.sampleStop_eq, ← headD_stopLevels hset]
    exact ⟨_, step_of_stop hrun hstop, rfl, hstop, s.sampleStop_pc, s.sampleStop_cond,
      fun r _ => s.sampleStop_reg r, fun a _ => s.sampleStop_word a, s.sampleStop_faultInfo,
      s.sampleStop_trace⟩
  · have hsample := s.sampleStop_eq
    rw [headD_stopLevels hclear] at hsample
    exact ⟨hsample, step_of_running hrun (by rw [hsample])⟩

/-! ## Reset and the exit codes -/

theorem State.resetAt_reg (pc : Word) (r : Reg) : (State.resetAt pc).reg r = 0x0000 := by
  simp [State.reg, State.resetAt]

/-- Settles O54: reset's fields are its values, and an empty memory reads as zero. -/
theorem resetLeavesTheListedValues : Obligations.ResetLeavesTheListedValues :=
  ⟨fun pc => ⟨rfl, rfl, State.resetAt_reg pc, fun _ => rfl, rfl, rfl, rfl, rfl, rfl⟩, rfl⟩

/-- Every draw of `STOP_EXIT_CODE` is below the taken codes or above them. -/
theorem stopExitCode_not_taken : Config.stopExitCode < 0 ∨ 2 < Config.stopExitCode := by
  unfold Config.stopExitCode
  split_ifs <;> omega

/-- Settles O60: the code of each run state, and `STOP_EXIT_CODE` is none of the taken ones. -/
theorem exitCodesOfTheOutcomes : Obligations.ExitCodesOfTheOutcomes := by
  refine ⟨fun s => ⟨fun h => ?_, fun h => ?_, fun h => ?_, fun h => ?_⟩, rfl, rfl, ?_⟩
  iterate 4 rw [State.exitCode, h]
  have htaken := stopExitCode_not_taken
  omega

/-! ## Images cut at the top of memory -/

/-- Loading stores no Word past the top, so cutting the Words there, or later, changes nothing
(`70_reset_and_hazards.md` R257). -/
theorem Memory.storeFrom_take {ws : List Word} {m : Memory} {a n : Nat} (h : 65536 ≤ a + n) :
    m.storeFrom a (ws.take n) = m.storeFrom a ws := by
  induction ws generalizing m a n with
  | nil => rw [List.take_nil]
  | cons w ws ih =>
    cases n with
    | zero => rw [List.take_zero, Memory.storeFrom, Memory.storeFrom, if_neg (by omega)]
    | succ n => rw [List.take_succ_cons, Memory.storeFrom, Memory.storeFrom, ih (by omega)]

/-- Cutting bytes after `n` pairs is cutting their Words after `n`. -/
theorem wordsOfBytes_take (n : Nat) (bs : List Byte) :
    wordsOfBytes (bs.take (2 * n)) = (wordsOfBytes bs).take n := by
  induction n generalizing bs with
  | zero => rfl
  | succ n ih =>
    match bs with
    | [] => rfl
    | [_] => rfl
    | hi :: lo :: rest => exact congrArg (wordOfBytes hi lo :: ·) (ih rest)

theorem length_wordsOfBytes : ∀ bs : List Byte, (wordsOfBytes bs).length = bs.length / 2
  | [] => rfl
  | [_] => by simp [wordsOfBytes]
  | _ :: _ :: rest => by
    rw [wordsOfBytes, List.length_cons, length_wordsOfBytes rest, List.length_cons, List.length_cons]
    omega

/-- An image's content cut to whole pairs and at the top of memory loads as the whole content does. -/
theorem Memory.storeFrom_wordsOfBytes_take (m : Memory) (a : Nat) (content : List Byte) :
    m.storeFrom a (wordsOfBytes (content.take (2 * min (65536 - a) (content.length / 2)))) =
      m.storeFrom a (wordsOfBytes content) := by
  rw [wordsOfBytes_take, ← length_wordsOfBytes, ← List.take_eq_take_min]
  exact Memory.storeFrom_take (by omega)

/-- Settles O57: what the loading of Words does at the top, carried over to images and boot steps. -/
theorem loaderClipsAtTheTop : Obligations.LoaderClipsAtTheTop := by
  refine ⟨fun m a ws hm ha => ⟨fun b => Memory.storeFrom_below ws m a b, fun hlast => ?_,
    (Memory.storeFrom_take (n := 65536 - a) (by omega)).symm, Memory.storeFrom_wf ws m a hm⟩,
    fun pairs odd => ?_, ?_⟩
  · have htop : a + (65535 - a) = 65535 := by omega
    have hread := Memory.storeFrom_at (a := a) hm hlast (by omega)
    rwa [htop] at hread
  · have hodd := wordsOfBytes_pairs pairs (odd := [odd]) (Nat.le_refl 1)
    have hwhole := wordsOfBytes_pairs pairs (odd := []) (Nat.zero_le 1)
    rw [List.append_nil] at hwhole
    rw [hodd, hwhole]
  · intro s hi lo content later hboot waiting fits
    have hstep (bytes : List Byte) := (step_of_booting (s := waiting bytes) hboot).trans
      (bootStep_image rfl (rfl : wordsOfBytes (hi :: lo :: bytes) = _ :: wordsOfBytes bytes))
    refine ⟨?_, _, hstep content, hboot, rfl⟩
    rw [hstep, hstep, toNat_wordOfBytes, Memory.storeFrom_wordsOfBytes_take]
    rfl

end Sys2Proof.Machine
